-- ==== Sys2Proof/Word.lean ====
section
/-! DEFINITION. The plain types of the TOM sequencer: an 8-bit register value, the one-bit flag, and text. -/

namespace Sys2Proof

/-- The value of one general register: 8 bits, read as an unsigned integer (10_state.md R24). -/
abbrev Byte := BitVec 8

/-- The comparison flag: one bit, so its values are 0 and 1 (10_state.md R28). -/
abbrev FlagBit := BitVec 1

/-- Text as the block works on it: Unicode scalar values, which is what Lean's `Char` is (20_memory.md R65). -/
abbrev Text := List Char

/-- One location of the program store: a finite string of characters (20_memory.md R46, R47). -/
abbrev Line := List Char

/-- U+000A LINE FEED, the one character that splits lines (20_memory.md R50). -/
def lineFeed : Char := '\n'

end Sys2Proof
end

