-- ==== Sys2Proof/Config.lean ====
section
/-! DEFINITION. What the spec leaves to an implementation (00_scope.md R9): the parameters of a run, given as arguments, and
the message texts that stay open, given as constants without a body. -/

namespace Sys2Proof

/-- The model arguments of 00_scope.md R9. `budget` is BUDGET, at least 1 (D15); `trimSet` is TRIM_SET (D9).
Every claim is stated for all of them; the default is only what the machine `Sys2Proof.core` runs with. -/
structure Params where
  budget : Nat
  budget_pos : 1 ≤ budget
  trimSet : List Char
deriving DecidableEq, Repr

/-- The default TRIM_SET of 00_scope.md R9: the Unicode White_Space set. PRESUMED (log 1): the spec marks it as general
knowledge. Unsafe for a claim about loading that leans on it. -/
def defaultTrimSet : List Char :=
  [0x09, 0x0A, 0x0B, 0x0C, 0x0D, 0x20, 0x85, 0xA0, 0x1680, 0x2000, 0x2001, 0x2002, 0x2003, 0x2004, 0x2005, 0x2006,
    0x2007, 0x2008, 0x2009, 0x200A, 0x2028, 0x2029, 0x202F, 0x205F, 0x3000].map Char.ofNat

/-- The defaults of 00_scope.md R9: BUDGET 10000 and the default TRIM_SET. -/
def Params.default : Params where
  budget := 10000
  budget_pos := by decide
  trimSet := defaultTrimSet

/-- What follows "Unknown command" in UNKNOWN_MSG. OPEN in the spec (00_scope.md R9, D21), so a free value (log 2). -/
opaque Config.unknownMsgRest : Text

/-- The text of CLAMP_LOW_MSG before the register's name, as a function of that name. OPEN, so a free value (log 2). -/
opaque Config.clampLowBefore : Text → Text

/-- The text of CLAMP_LOW_MSG after the register's name. OPEN, so a free value (log 2). -/
opaque Config.clampLowAfter : Text → Text

/-- The text of CLAMP_HIGH_MSG before the register's name. OPEN, so a free value (log 2). -/
opaque Config.clampHighBefore : Text → Text

/-- The text of CLAMP_HIGH_MSG after the register's name. OPEN, so a free value (log 2). -/
opaque Config.clampHighAfter : Text → Text

end Sys2Proof
end

