-- ==== Sys2Proof/Syntax.lean ====
section
/-! DEFINITION. The registers, the instruction set (one constructor per row of spec/opcode_table.json) and the decoded record. -/

namespace Sys2Proof

/-- The eight general registers (10_state.md R22). -/
inductive Reg where
  | ax | bx | cx | dx | ex | fx | gx | hx
deriving DecidableEq, Repr

/-- One decoded line: the closed variant of 00_scope.md R2, with the fields 30_encoding.md R85 gives each op.
Literals and targets are natural numbers of any size (00_scope.md R9, 30_encoding.md R87). In the two-register forms the
first operand is the source and the second the destination (30_encoding.md R77). -/
inductive Instr where
  /-- `MOV <digits>, <REG>` (R72). -/
  | mov (k : Nat) (d : Reg)
  /-- `ADD <REG>, <REG>` (R73). -/
  | add (s d : Reg)
  /-- `SUB <REG>, <REG>` (R73). -/
  | sub (s d : Reg)
  /-- `COPY <REG>, <REG>` (R73). -/
  | copy (s d : Reg)
  /-- `AND <REG>, <REG>` (R73). -/
  | and (s d : Reg)
  /-- `OR <REG>, <REG>` (R73). -/
  | or (s d : Reg)
  /-- `CMP <REG>, <REG>` (R73). -/
  | cmp (s d : Reg)
  /-- `JEQ <digits>` (R74); the target is a 1-based line number. -/
  | jeq (t : Nat)
  /-- `JNEQ <digits>` (R74). -/
  | jneq (t : Nat)
  /-- `JMP <digits>` (R74). -/
  | jmp (t : Nat)
  /-- A line that starts with `#` (R75). -/
  | comment
  /-- Every other line (R76). -/
  | invalid
deriving DecidableEq, Repr

/-- The decoder multiplexer's output (30_encoding.md R82): a 4-bit selector, two 3-bit register indices and the side field. -/
structure Decoded where
  op : BitVec 4
  s : BitVec 3
  d : BitVec 3
  k : Nat
deriving DecidableEq, Repr

end Sys2Proof
end

