-- ==== Sys2Proof/WellFormed.lean ====
section
/-! DEFINITION. What the spec calls a proper line, program store, decoded record and literal. -/

namespace Sys2Proof

/-- A line holds no U+000A (20_memory.md R47). -/
def lineWf (L : Line) : Bool := L.all fun c => c != lineFeed

/-- Every location of a program store holds a proper line. -/
def storeWf (P : List Line) : Bool := P.all lineWf

/-- A record the decoder can make: a selector of 30_encoding.md R83, and every field that op does not use at 0 (R82, R85). -/
def Decoded.wellFormed (r : Decoded) : Bool :=
  match r.op.toNat with
  | 0 => r.s == 0
  | 1 | 2 | 3 | 4 | 5 | 6 => r.k == 0
  | 7 | 8 | 9 => r.s == 0 && r.d == 0
  | 14 | 15 => r.s == 0 && r.d == 0 && r.k == 0
  | _ => false

/-- The literal or jump target an instruction carries, if it carries one (30_encoding.md R87). -/
def Instr.literal? : Instr → Option Nat
  | .mov k _ => some k
  | .add _ _ => none
  | .sub _ _ => none
  | .copy _ _ => none
  | .and _ _ => none
  | .or _ _ => none
  | .cmp _ _ => none
  | .jeq t => some t
  | .jneq t => some t
  | .jmp t => some t
  | .comment => none
  | .invalid => none

/-- An instruction is well formed for a literal field of `kW` bits when its literal is below 2^kW (30_encoding.md R86).
`none` is the spec's own machine, whose literal is unbounded: there every instruction is well formed. -/
def Instr.wellFormed (kW : Option Nat) (i : Instr) : Bool :=
  match kW, i.literal? with
  | some w, some k => decide (k < 2 ^ w)
  | _, _ => true

end Sys2Proof
end

