-- ==== Sys2Proof/Decode.lean ====
section
/-! DEFINITION. The instruction decoder (30_encoding.md R66 to R80), the encoder, the decoded record and its packed word
(R82 to R85), and the grammar of a line as a predicate. -/

namespace Sys2Proof

/-! ## Tokens -/

/-- The register's index, `AX` = 0 to `HX` = 7 (10_state.md R23). -/
def Reg.index : Reg → Nat
  | .ax => 0 | .bx => 1 | .cx => 2 | .dx => 3 | .ex => 4 | .fx => 5 | .gx => 6 | .hx => 7

/-- The register of an index, for 0 to 7. -/
def Reg.ofIndex : Nat → Option Reg
  | 0 => some .ax | 1 => some .bx | 2 => some .cx | 3 => some .dx
  | 4 => some .ex | 5 => some .fx | 6 => some .gx | 7 => some .hx
  | _ => none

/-- The register's two-letter name (10_state.md R22). -/
def regName : Reg → Text
  | .ax => "AX".toList | .bx => "BX".toList | .cx => "CX".toList | .dx => "DX".toList
  | .ex => "EX".toList | .fx => "FX".toList | .gx => "GX".toList | .hx => "HX".toList

/-- The register a token names: exactly two characters, a letter `A` to `H` and then `X`; the index is the letter's code
minus the code of `A` (30_encoding.md R69). -/
def regToken : Line → Option Reg
  | [a, b] => if b = 'X' ∧ 'A'.toNat ≤ a.toNat then Reg.ofIndex (a.toNat - 'A'.toNat) else none
  | _ => none

/-- One of the ASCII characters `0` to `9` (30_encoding.md R70). -/
def isDigit (c : Char) : Bool := '0'.toNat ≤ c.toNat && c.toNat ≤ '9'.toNat

/-- A literal token: one or more digits (30_encoding.md R70). -/
def isDigits (w : Line) : Bool := !w.isEmpty && w.all isDigit

/-- The number a digit string spells in base 10, the sum of 30_encoding.md R78; any size, leading zeros allowed. -/
def val : Line → Nat
  | [] => 0
  | c :: w => (c.toNat - '0'.toNat) * 10 ^ w.length + val w

/-- What follows `p` in a line that starts with `p`. -/
def stripPrefix : Line → Line → Option Line
  | [], L => some L
  | _ :: _, [] => none
  | c :: p, x :: L => if c = x then stripPrefix p L else none

/-! ## The decoder -/

/-- A line whose first character is `#` (30_encoding.md R75). -/
def isComment (L : Line) : Bool := L.head? == some '#'

/-- Format T-IR (30_encoding.md R72). The digits hold no `,`, so they are the longest run of digits (R79). -/
def decodeImmReg (L : Line) : Option Instr :=
  (stripPrefix "MOV ".toList L).bind fun rest =>
    (stripPrefix ", ".toList (rest.dropWhile isDigit)).bind fun r =>
      if isDigits (rest.takeWhile isDigit) then (regToken r).map (.mov (val (rest.takeWhile isDigit))) else none

/-- Format T-RR (30_encoding.md R73) of one mnemonic: source first, destination second (R77). -/
def decodeRegReg (m : String) (op : Reg → Reg → Instr) (L : Line) : Option Instr :=
  (stripPrefix (m.toList ++ [' ']) L).bind fun rest =>
    (stripPrefix ", ".toList (rest.drop 2)).bind fun r2 =>
      (regToken (rest.take 2)).bind fun s => (regToken r2).map (op s)

/-- Format T-T (30_encoding.md R74) of one mnemonic. -/
def decodeTarget (m : String) (op : Nat → Instr) (L : Line) : Option Instr :=
  (stripPrefix (m.toList ++ [' ']) L).bind fun w => if isDigits w then some (op (val w)) else none

/-- The arms of 30_encoding.md R78 after the comment test, in its order. -/
def decodeArms (L : Line) : List (Option Instr) :=
  [decodeImmReg L,
    decodeRegReg "ADD" .add L, decodeRegReg "SUB" .sub L, decodeRegReg "COPY" .copy L,
    decodeRegReg "AND" .and L, decodeRegReg "OR" .or L, decodeRegReg "CMP" .cmp L,
    decodeTarget "JEQ" .jeq L, decodeTarget "JNEQ" .jneq L, decodeTarget "JMP" .jmp L]

/-- The decoder: a total function from a line to an instruction, the first arm that matches, else INVALID
(30_encoding.md R78). -/
def decode (L : Line) : Instr :=
  if isComment L then .comment else ((decodeArms L).findSome? id).getD .invalid

/-! ## The grammar, as a predicate -/

/-- `L` is a line of mnemonic `m` in format T-RR, with source `s` and destination `d` (30_encoding.md R73). -/
def formatRegReg (m : String) (s d : Reg) (L : Line) : Prop :=
  L = m.toList ++ " ".toList ++ regName s ++ ", ".toList ++ regName d

/-- `L` is a line of mnemonic `m` in format T-T, with target `t` (30_encoding.md R74). -/
def formatTarget (m : String) (t : Nat) (L : Line) : Prop :=
  ∃ w, isDigits w = true ∧ val w = t ∧ L = m.toList ++ " ".toList ++ w

/-- `L` is a line of instruction `i`, for every kind but INVALID (30_encoding.md R72 to R75). -/
def formatOf (i : Instr) (L : Line) : Prop :=
  match i with
  | .mov k d => ∃ w, isDigits w = true ∧ val w = k ∧ L = "MOV ".toList ++ w ++ ", ".toList ++ regName d
  | .add s d => formatRegReg "ADD" s d L
  | .sub s d => formatRegReg "SUB" s d L
  | .copy s d => formatRegReg "COPY" s d L
  | .and s d => formatRegReg "AND" s d L
  | .or s d => formatRegReg "OR" s d L
  | .cmp s d => formatRegReg "CMP" s d L
  | .jeq t => formatTarget "JEQ" t L
  | .jneq t => formatTarget "JNEQ" t L
  | .jmp t => formatTarget "JMP" t L
  | .comment => ∃ rest, L = '#' :: rest
  | .invalid => False

/-! ## The encoder -/

/-- The ASCII digit of a number below 10. -/
def digitChar (n : Nat) : Char := Char.ofNat ('0'.toNat + n)

/-- The decimal digits of `n`, most significant first, with `fuel` above the number of digits. -/
def decimalDigits : Nat → Nat → Text
  | 0, _ => []
  | fuel + 1, n => if n < 10 then [digitChar n] else decimalDigits fuel (n / 10) ++ [digitChar (n % 10)]

/-- The decimal spelling of `n`, with no leading zeros (10_state.md R42, D28). -/
def dec (n : Nat) : Text := decimalDigits (n + 1) n

/-- The line of a T-RR instruction. -/
def encodeRegReg (m : String) (s d : Reg) : Line := m.toList ++ " ".toList ++ regName s ++ ", ".toList ++ regName d

/-- The line of a T-T instruction. -/
def encodeTarget (m : String) (t : Nat) : Line := m.toList ++ " ".toList ++ dec t

/-- One line for every instruction, in the formats of 30_encoding.md R72 to R76. Of the many lines with the same meaning it is
the one without leading zeros; a comment is `#` alone, and INVALID is the empty line. DESIGN CHOICE (log 14), safe: no step
uses the encoder. -/
def encode : Instr → Line
  | .mov k d => "MOV ".toList ++ dec k ++ ", ".toList ++ regName d
  | .add s d => encodeRegReg "ADD" s d
  | .sub s d => encodeRegReg "SUB" s d
  | .copy s d => encodeRegReg "COPY" s d
  | .and s d => encodeRegReg "AND" s d
  | .or s d => encodeRegReg "OR" s d
  | .cmp s d => encodeRegReg "CMP" s d
  | .jeq t => encodeTarget "JEQ" t
  | .jneq t => encodeTarget "JNEQ" t
  | .jmp t => encodeTarget "JMP" t
  | .comment => "#".toList
  | .invalid => []

/-! ## The decoded record and its packed word -/

/-- A register's 3-bit field in the decoded record (30_encoding.md R82). -/
def Reg.field (r : Reg) : BitVec 3 := BitVec.ofNat 3 r.index

/-- The register a 3-bit field names. -/
def Reg.ofField (f : BitVec 3) : Reg := (Reg.ofIndex f.toNat).getD .ax

/-- The decoded record of an instruction: the selectors of 30_encoding.md R83, the fields of R85, unused fields 0 (R82). -/
def Instr.record : Instr → Decoded
  | .mov k d => ⟨0x0, 0, d.field, k⟩
  | .add s d => ⟨0x1, s.field, d.field, 0⟩
  | .sub s d => ⟨0x2, s.field, d.field, 0⟩
  | .copy s d => ⟨0x3, s.field, d.field, 0⟩
  | .and s d => ⟨0x4, s.field, d.field, 0⟩
  | .or s d => ⟨0x5, s.field, d.field, 0⟩
  | .cmp s d => ⟨0x6, s.field, d.field, 0⟩
  | .jeq t => ⟨0x7, 0, 0, t⟩
  | .jneq t => ⟨0x8, 0, 0, t⟩
  | .jmp t => ⟨0x9, 0, 0, t⟩
  | .comment => ⟨0xE, 0, 0, 0⟩
  | .invalid => ⟨0xF, 0, 0, 0⟩

/-- The instruction of a decoded record; none for a record the decoder never makes: a selector 0xA to 0xD
(30_encoding.md R84), or a field set that its op does not use (R82; log 7). -/
def Decoded.instr? (r : Decoded) : Option Instr :=
  let s := Reg.ofField r.s
  let d := Reg.ofField r.d
  if r.wellFormed then
    match r.op.toNat with
    | 0 => some (.mov r.k d)
    | 1 => some (.add s d)
    | 2 => some (.sub s d)
    | 3 => some (.copy s d)
    | 4 => some (.and s d)
    | 5 => some (.or s d)
    | 6 => some (.cmp s d)
    | 7 => some (.jeq r.k)
    | 8 => some (.jneq r.k)
    | 9 => some (.jmp r.k)
    | 14 => some .comment
    | 15 => some .invalid
    | _ => none
  else none

/-- The fixed part of a record as one 10-bit word, d·128 + s·16 + op (30_encoding.md R82). -/
def Decoded.word (r : Decoded) : BitVec 10 := r.d ++ r.s ++ r.op

/-- The record of a packed word and a side field: op in bits 3..0, s in bits 6..4, d in bits 9..7 (30_encoding.md R82). -/
def Decoded.ofWord (w : BitVec 10) (k : Nat) : Decoded :=
  ⟨w.extractLsb' 0 4, w.extractLsb' 4 3, w.extractLsb' 7 3, k⟩

/-- The instruction of an opcode-table word, as the table numbers its bits: the packed word of 30_encoding.md R82 in bits
9..0, with the side field 0. The word's record is written as the line that means it, and the answer is what the line decoder
reads there (log 6). None where bits above 9 are set or no row has the word. -/
def decodeTableWord (_nbits w : Nat) : Option Instr :=
  if w < 2 ^ 10 then (Decoded.ofWord (BitVec.ofNat 10 w) 0).instr?.map fun i => decode (encode i) else none

end Sys2Proof
end

