-- ==== Sys2Proof/Machine/State.lean ====
section
/-! DEFINITION. The state of the TOM sequencer (10_state.md), its reset value, and the reasons a request can stop. -/

namespace Sys2Proof.Machine

open Sys2Proof

/-- The state of the sequencer's state machine (10_state.md R35). -/
inductive RunState where
  | idle | running | haltedNormal | haltedError | haltedFault
deriving DecidableEq, Repr

/-- Why a run halted (10_state.md R36). -/
inductive HaltCause where
  | none | normal | unknownInstruction | commandBudget | fetchOutOfRange
deriving DecidableEq, Repr

/-- The events of the trace (10_state.md R41). `i` is the 0-based index of the line that made the event. -/
inductive Event where
  | banner
  | move (i v : Nat) (d : Reg)
  | add (i : Nat) (s d : Reg)
  | sub (i : Nat) (s d : Reg)
  | copy (i : Nat) (s d : Reg)
  | and (i : Nat) (s d : Reg)
  | or (i : Nat) (s d : Reg)
  | cmp (i : Nat) (s d : Reg)
  | jeqTaken (i t : Nat)
  | jneqTaken (i t : Nat)
  | jmp (i t : Nat)
  | clampLow (i : Nat) (d : Reg)
  | clampHigh (i : Nat) (d : Reg)
  | unknown (i : Nat)
  | tooMany (i : Nat)
deriving DecidableEq, Repr

/-- The Register Bank: eight 8-bit registers, all always present (10_state.md R22, R24). -/
structure RegBank where
  ax : Byte
  bx : Byte
  cx : Byte
  dx : Byte
  ex : Byte
  fx : Byte
  gx : Byte
  hx : Byte
deriving DecidableEq, Repr, Inhabited

/-- The whole machine state, field by field the record of 10_state.md (R21): the registers `x`, the flag `zx`, the program
counter `pc` (an integer, R31), the executed-command counter `cnt` (R34), the run state `rs` (R35), the halt cause `cause`
(R36), the program store `P` (R37) and the trace `T` (R40). -/
structure State where
  x : RegBank
  zx : FlagBit
  pc : Int
  cnt : Nat
  rs : RunState
  cause : HaltCause
  P : List Line
  T : List Event
deriving DecidableEq, Repr

/-- The reset state, which is also the state at power-on (10_state.md R44, 40_sequencer.md R102, 70_reset_and_hazards.md R201). -/
def State.reset : State where
  x := ⟨0, 0, 0, 0, 0, 0, 0, 0⟩
  zx := 0
  pc := 0
  cnt := 0
  rs := .idle
  cause := .none
  P := []
  T := [.banner]

/-- The reasons the machine stops with a fault. The spec's own fatal events are not here: they are next states, with `rs` and
`cause` set (60_exceptions.md R185). -/
inductive Fault where
  /-- Raised by `execRecord` alone, for a decoded record that the decoder never makes: an op value 0xA to 0xD (30_encoding.md
  R84, U5), or a field set that its op does not use (log 7). Safe: no step raises it. -/
  | undefinedRecord (op : BitVec 4)
deriving DecidableEq, Repr

/-- The reasons a request is refused. -/
inductive Refusal where
  /-- An instruction without a meaning. No arm of `exec` answers with it: every row of the table has its meaning. Safe. -/
  | notModelled (mnemonic : String)
  /-- Raised by `command` for RESET or RUN while RUNNING, which the spec gives no transition (40_sequencer.md R129, U1). Safe. -/
  | commandWhileRunning
  /-- Raised by `command` for a change of the program text during a run (70_reset_and_hazards.md R207, U15). Safe. -/
  | textChangeWhileRunning
  /-- Raised by `command` for program bytes that are not UTF-8 (20_memory.md R65, U6). Safe. -/
  | invalidUtf8
  /-- Raised by `runBounded` for a program with a literal that a realisation's `K_W` bits cannot hold (30_encoding.md R86, U7).
  Safe. -/
  | literalTooWide
  /-- Raised by `runBounded` for a program longer than a realisation's `MAX_LINES` (00_scope.md R9, U8). Safe. -/
  | programTooLong
deriving DecidableEq, Repr

end Sys2Proof.Machine
end

