-- ==== Sys2Proof/Machine/Operands.lean ====
section
/-! DEFINITION. The operand forms of the instruction set (30_encoding.md R87, R88): a register read, a literal, a jump target,
and the index of the line being executed. -/

namespace Sys2Proof.Machine

open Sys2Proof

/-- Register `r` of the bank. A read never fails and changes nothing (10_state.md R22, 20_memory.md R57). -/
def RegBank.get (b : RegBank) : Reg → Byte
  | .ax => b.ax | .bx => b.bx | .cx => b.cx | .dx => b.dx
  | .ex => b.ex | .fx => b.fx | .gx => b.gx | .hx => b.hx

/-- The bank with register `r` holding `v`. No register is hardwired (10_state.md R25). -/
def RegBank.set (b : RegBank) (r : Reg) (v : Byte) : RegBank :=
  match r with
  | .ax => { b with ax := v }
  | .bx => { b with bx := v }
  | .cx => { b with cx := v }
  | .dx => { b with dx := v }
  | .ex => { b with ex := v }
  | .fx => { b with fx := v }
  | .gx => { b with gx := v }
  | .hx => { b with hx := v }

/-- A register operand: register-direct (30_encoding.md R88). -/
def readReg (s : State) (r : Reg) : Byte := s.x.get r

/-- A register operand as the unsigned integer it holds, for exact arithmetic in ℤ (41_register_ops.md R140). -/
def regInt (s : State) (r : Reg) : Int := (readReg s r).toNat

/-- A MOV literal: the natural number itself, neither scaled nor extended (30_encoding.md R87). -/
def literalInt (k : Nat) : Int := k

/-- The index `i` of the line being executed, which `pc` holds during a step (10_state.md R30). A step executes only when
0 ≤ pc, and there it is pc itself; below 0 it reads 0 (log 11). -/
def lineIndex (s : State) : Nat := s.pc.toNat

/-- The next pc of a taken jump to the 1-based line number `t`: t − 1, in ℤ (40_sequencer.md R115, D6). -/
def targetPc (t : Nat) : Int := t - 1

/-- The next pc of everything but a taken jump: i + 1 (40_sequencer.md R114). -/
def nextPc (s : State) : Int := s.pc + 1

end Sys2Proof.Machine
end

