-- ==== Sys2Proof/Machine/Flags.lean ====
section
/-! DEFINITION. The one flag, ZX (10_state.md R28, R29): what CMP writes into it and what the conditional jumps ask of it. -/

namespace Sys2Proof.Machine

open Sys2Proof

/-- What CMP writes: 1 if the two values are equal, else 0 (41_register_ops.md R139). -/
def equalFlag (a b : Byte) : FlagBit := if b = a then 1 else 0

/-- Whether JEQ is taken (42_control_transfer.md R152). -/
def flagSaysEqual (s : State) : Bool := s.zx == 1

/-- Whether JNEQ is taken (42_control_transfer.md R153). -/
def flagSaysNotEqual (s : State) : Bool := s.zx == 0

end Sys2Proof.Machine
end

