-- ==== Sys2Proof/Machine/Ops.lean ====
section
/-! DEFINITION. The shared operations over the state: one field at a time, then the clamp write-back, the halt (this block's only
form of taking an exception) and the fetch. -/

namespace Sys2Proof.Machine

open Sys2Proof

/-! ## One field -/

/-- `x[r] <- v`. -/
def State.setReg (s : State) (r : Reg) (v : Byte) : State := { s with x := s.x.set r v }

/-- `ZX <- v`. -/
def State.setZx (s : State) (v : FlagBit) : State := { s with zx := v }

/-- `pc <- v`. -/
def State.setPc (s : State) (v : Int) : State := { s with pc := v }

/-- `cnt <- v`. -/
def State.setCnt (s : State) (v : Nat) : State := { s with cnt := v }

/-- `emit(e)`: append to the end of the trace (10_state.md R41). -/
def State.emit (s : State) (e : Event) : State := { s with T := s.T ++ [e] }

/-! ## Clamp and write-back -/

/-- Saturation to [0, 255], not wrap-around (41_register_ops.md R131). -/
def clamp (v : Int) : Int := if v < 0 then 0 else if v > 255 then 255 else v

/-- The clamped value as a register holds it. -/
def clampByte (v : Int) : Byte := BitVec.ofInt 8 (clamp v)

/-- The warning a raw value causes, if any (41_register_ops.md R132). -/
def clampWarning (i : Nat) (d : Reg) (raw : Int) : Option Event :=
  if raw < 0 then some (.clampLow i d) else if raw > 255 then some (.clampHigh i d) else none

/-- `WB(d, raw, i)`: write the clamped value, then emit at most one warning (41_register_ops.md R132). The raw value lives only
here (10_state.md R38). -/
def writeBack (d : Reg) (raw : Int) (i : Nat) (s : State) : State :=
  match clampWarning i d raw with
  | some w => (s.setReg d (clampByte raw)).emit w
  | none => s.setReg d (clampByte raw)

/-! ## Halting: what stands in the place of taking an exception -/

/-- `halt(state, cause)`: set `rs` and `cause` and leave everything else (40_sequencer.md R117, 60_exceptions.md R185). There is
no return: only the host's RESET or RUN leaves a halted state (60_exceptions.md R186). -/
def State.halt (s : State) (rs : RunState) (cause : HaltCause) : State := { s with rs := rs, cause := cause }

/-- The normal end of a run (40_sequencer.md R105). -/
def State.loopExit (s : State) : State := s.halt .haltedNormal .normal

/-- FetchOutOfRange: no event, nothing else changes (40_sequencer.md R106, 60_exceptions.md R179). -/
def State.fetchFault (s : State) : State := s.halt .haltedFault .fetchOutOfRange

/-- ParseFailure at line `i`: emit UNKNOWN(i) and halt (40_sequencer.md R110, 60_exceptions.md R176). -/
def State.parseFailure (s : State) (i : Nat) : State := (s.emit (.unknown i)).halt .haltedError .unknownInstruction

/-- ResourceExceeded at line `i`: emit TOO_MANY(i) and halt (40_sequencer.md R116, 60_exceptions.md R178). -/
def State.budgetExceeded (s : State) (i : Nat) : State := (s.emit (.tooMany i)).halt .haltedError .commandBudget

/-- Step e of the loop and the budget test g (40_sequencer.md R113, R116): count the executed instruction of line `i`, and halt
if the count has reached the budget. -/
def State.countInstruction (p : Params) (i : Nat) (s : State) : State :=
  let t := s.setCnt (s.cnt + 1)
  if p.budget ≤ t.cnt then t.budgetExceeded i else t

/-! ## Fetch -/

/-- What the tests at the start of a step find: the loop exit, a pc below 0, or a line (40_sequencer.md R105 to R107). -/
inductive Fetched where
  | pastEnd
  | beforeStart
  | line (L : Line)
deriving DecidableEq, Repr

/-- The tests of 40_sequencer.md R104 in its order, then the fetch of `P[pc]` (20_memory.md R52). It changes nothing. -/
def fetch (s : State) : Fetched :=
  if s.pc ≥ s.P.length then .pastEnd
  else if s.pc < 0 then .beforeStart
  else .line (s.P.getD (lineIndex s) [])

/-! ## Outcomes -/

/-- The next state of an outcome, if it is one. -/
def nextState? (o : Host.Outcome State Fault Refusal) : Option State :=
  match o with
  | .next t => some t
  | .fault _ => none
  | .refused _ => none

/-- An outcome with its next state, if it is one, passed through `f`. -/
def mapNext {α β : Type} (f : α → β) (o : Host.Outcome α Fault Refusal) : Host.Outcome β Fault Refusal :=
  match o with
  | .next t => .next (f t)
  | .fault r => .fault r
  | .refused r => .refused r

end Sys2Proof.Machine
end

