-- ==== Sys2Proof/Machine/ControlTransfer.lean ====
section
/-! DEFINITION. The conditional-jump controller: JEQ, JNEQ, JMP (42_control_transfer.md). -/

namespace Sys2Proof.Machine

open Sys2Proof

/-- A taken jump: its one event, then pc = t − 1 (42_control_transfer.md R151, 40_sequencer.md R115). Every natural number is a
legal target (R155). -/
def takeJump (e : Event) (t : Nat) (s : State) : State := (s.emit e).setPc (targetPc t)

/-- A jump that is not taken: no event, pc = i + 1 (40_sequencer.md R114). -/
def fallThrough (s : State) : State := s.setPc (nextPc s)

/-- JEQ (42_control_transfer.md R152). -/
def execJeq (t : Nat) (s : State) : Host.Outcome State Fault Refusal :=
  .next (if flagSaysEqual s then takeJump (.jeqTaken (lineIndex s) t) t s else fallThrough s)

/-- JNEQ (42_control_transfer.md R153). -/
def execJneq (t : Nat) (s : State) : Host.Outcome State Fault Refusal :=
  .next (if flagSaysNotEqual s then takeJump (.jneqTaken (lineIndex s) t) t s else fallThrough s)

/-- JMP (42_control_transfer.md R154). -/
def execJmp (t : Nat) (s : State) : Host.Outcome State Fault Refusal :=
  .next (takeJump (.jmp (lineIndex s) t) t s)

/-- The conditional-jump controller's decision for a decoded line: whether it is a jump that is taken (R152 to R154). -/
def jumpTaken (i : Instr) (s : State) : Bool :=
  match i with
  | .jeq _ => flagSaysEqual s
  | .jneq _ => flagSaysNotEqual s
  | .jmp _ => true
  | .mov _ _ => false
  | .add _ _ => false
  | .sub _ _ => false
  | .copy _ _ => false
  | .and _ _ => false
  | .or _ _ => false
  | .cmp _ _ => false
  | .comment => false
  | .invalid => false

end Sys2Proof.Machine
end

