-- ==== Sys2Proof/Machine/NonInstructions.lean ====
section
/-! DEFINITION. The two line kinds that are not instructions: COMMENT and INVALID (43_comment_and_invalid.md). -/

namespace Sys2Proof.Machine

open Sys2Proof

/-- COMMENT: only the pc moves (43_comment_and_invalid.md R166). -/
def execComment (s : State) : Host.Outcome State Fault Refusal := .next (s.setPc (nextPc s))

/-- INVALID: emit UNKNOWN(i) and halt; pc, cnt, the registers and ZX stay (43_comment_and_invalid.md R167). -/
def execInvalid (s : State) : Host.Outcome State Fault Refusal := .next (s.parseFailure (lineIndex s))

end Sys2Proof.Machine
end

