-- ==== Sys2Proof/Machine/RegisterOps.lean ====
section
/-! DEFINITION. MOV, ADD, SUB, COPY, AND, OR, CMP (41_register_ops.md). Each meaning is the rule of its instruction with the pc
moved to i + 1; the count and the budget test are the sequencer's (40_sequencer.md R113, R116). -/

namespace Sys2Proof.Machine

open Sys2Proof

/-- The common end of every mutating instruction (40_sequencer.md R121): emit the action event, write back with the clamp and
its warning, move on to line i + 1. `raw` was computed from the state before any write (40_sequencer.md R112). -/
def mutate (e : Event) (d : Reg) (raw : Int) (s : State) : State :=
  (writeBack d raw (lineIndex s) (s.emit e)).setPc (nextPc s)

/-- MOV (41_register_ops.md R133). -/
def execMov (k : Nat) (d : Reg) (s : State) : Host.Outcome State Fault Refusal :=
  .next (mutate (.move (lineIndex s) k d) d (literalInt k) s)

/-- ADD (41_register_ops.md R134). -/
def execAdd (src d : Reg) (s : State) : Host.Outcome State Fault Refusal :=
  .next (mutate (.add (lineIndex s) src d) d (regInt s d + regInt s src) s)

/-- SUB, destination minus source (41_register_ops.md R135). -/
def execSub (src d : Reg) (s : State) : Host.Outcome State Fault Refusal :=
  .next (mutate (.sub (lineIndex s) src d) d (regInt s d - regInt s src) s)

/-- COPY (41_register_ops.md R136). -/
def execCopy (src d : Reg) (s : State) : Host.Outcome State Fault Refusal :=
  .next (mutate (.copy (lineIndex s) src d) d (regInt s src) s)

/-- AND, bitwise (41_register_ops.md R137, D12). -/
def execAnd (src d : Reg) (s : State) : Host.Outcome State Fault Refusal :=
  .next (mutate (.and (lineIndex s) src d) d ((readReg s d &&& readReg s src).toNat : Int) s)

/-- OR, bitwise (41_register_ops.md R138, D12). -/
def execOr (src d : Reg) (s : State) : Host.Outcome State Fault Refusal :=
  .next (mutate (.or (lineIndex s) src d) d ((readReg s d ||| readReg s src).toNat : Int) s)

/-- CMP: write ZX, emit, and run the uniform clamp check on the destination's own value (41_register_ops.md R139, D16). -/
def execCmp (src d : Reg) (s : State) : Host.Outcome State Fault Refusal :=
  .next (mutate (.cmp (lineIndex s) src d) d (regInt s d) (s.setZx (equalFlag (readReg s src) (readReg s d))))

end Sys2Proof.Machine
end

