-- ==== Sys2Proof/Machine/Dispatch.lean ====
section
/-! DEFINITION. The dispatch: each instruction's one meaning. -/

namespace Sys2Proof.Machine

open Sys2Proof

def exec (i : Instr) (s : State) : Host.Outcome State Fault Refusal :=
  match i with
  | .mov k d => Sys2Proof.Machine.execMov k d s
  | .add src d => Sys2Proof.Machine.execAdd src d s
  | .sub src d => Sys2Proof.Machine.execSub src d s
  | .copy src d => Sys2Proof.Machine.execCopy src d s
  | .and src d => Sys2Proof.Machine.execAnd src d s
  | .or src d => Sys2Proof.Machine.execOr src d s
  | .cmp src d => Sys2Proof.Machine.execCmp src d s
  | .jeq t => Sys2Proof.Machine.execJeq t s
  | .jneq t => Sys2Proof.Machine.execJneq t s
  | .jmp t => Sys2Proof.Machine.execJmp t s
  | .comment => Sys2Proof.Machine.execComment s
  | .invalid => Sys2Proof.Machine.execInvalid s

end Sys2Proof.Machine
end

