-- ==== Sys2Proof/Machine/Sequencer.lean ====
section
/-! DEFINITION. The fetch-decode-execute sequencer (40_sequencer.md): what one step does around `exec`, and runs of steps. -/

namespace Sys2Proof.Machine

open Sys2Proof

/-- Whether a decoded line is an instruction that counts: every kind but COMMENT and INVALID (40_sequencer.md R113). -/
def counts (i : Instr) : Bool :=
  match i with
  | .comment => false
  | .invalid => false
  | .mov _ _ => true
  | .add _ _ => true
  | .sub _ _ => true
  | .copy _ _ => true
  | .and _ _ => true
  | .or _ _ => true
  | .cmp _ _ => true
  | .jeq _ => true
  | .jneq _ => true
  | .jmp _ => true

/-- What the sequencer does after `exec` of a decoded line: count it and test the budget, if it counts. `line` is the index of the
line that ran, before the pc update (40_sequencer.md R113, R116; log 15). -/
def retire (p : Params) (i : Instr) (line : Nat) (t : State) : State :=
  if counts i then t.countInstruction p line else t

/-- One decoded line: its meaning, then the sequencer's own part (40_sequencer.md R111 to R116). -/
def runDecoded (p : Params) (i : Instr) (s : State) : Host.Outcome State Fault Refusal :=
  mapNext (retire p i (lineIndex s)) (exec i s)

/-- One iteration of the loop (40_sequencer.md R104). It is taken only while RUNNING; otherwise the block waits for the host and
nothing changes (R118, 60_exceptions.md R194; log 3). -/
def stepWith (p : Params) (s : State) : Host.Outcome State Fault Refusal :=
  if s.rs = .running then
    match fetch s with
    | .pastEnd => .next s.loopExit
    | .beforeStart => .next s.fetchFault
    | .line L => runDecoded p (decode L) s
  else .next s

/-- At most `k` steps, ending as soon as the block is no longer RUNNING (40_sequencer.md R101). -/
def runSteps (p : Params) : Nat → State → Host.Outcome State Fault Refusal
  | 0, s => .next s
  | k + 1, s =>
    if s.rs = .running then
      match stepWith p s with
      | .next t => runSteps p k t
      | .fault r => .fault r
      | .refused r => .refused r
    else .next s

/-- The most steps a run can take (40_sequencer.md R123). -/
def stepBound (p : Params) (s : State) : Nat := (p.budget + 1) * (s.P.length + 1)

/-- The execute stage fed by a decoded record (30_encoding.md R82); it faults on a record the decoder never makes (R84; log 7). -/
def execRecord (r : Decoded) (s : State) : Host.Outcome State Fault Refusal :=
  match r.instr? with
  | some i => exec i s
  | none => .fault (.undefinedRecord r.op)

/-- The program store with `L` at index `i`, filled up with empty lines where it was shorter. -/
def placeLine (L : Line) : Nat → List Line → List Line
  | 0, [] => [L]
  | 0, _ :: P => L :: P
  | i + 1, [] => [] :: placeLine L i []
  | i + 1, K :: P => K :: placeLine L i P

/-- A state in which the next step fetches and runs `L`: the line stands at the pc, the block is RUNNING, and a pc below 0 is
moved to the entry point, index 0 (log 5). -/
def placeNextLine (L : Line) (s : State) : State :=
  { s with P := placeLine L (lineIndex s) s.P, pc := lineIndex s, rs := .running, cause := .none }

end Sys2Proof.Machine
end

