-- ==== Sys2Proof/Machine/Step.lean ====
section
/-! DEFINITION. One step with the default parameters, and the placing of an opcode-table word where the next step fetches. -/

namespace Sys2Proof.Machine

open Sys2Proof

/-- One step, with BUDGET at its default of 10000 (00_scope.md R9). -/
def step (s : State) : Host.Outcome State Fault Refusal := stepWith Params.default s

/-- The state in which the next step runs the instruction of table word `w`: its line stands where the pc points (log 5). A word
that is no row of the table leaves the state as it is. It stands for the load that RUN makes (40_sequencer.md R101; log 4). -/
def State.withFetchWord (s : State) (nbits w : Nat) : State :=
  match decodeTableWord nbits w with
  | some i => placeNextLine (encode i) s
  | none => s

end Sys2Proof.Machine
end

