-- ==== Sys2Proof/Machine/Loader.lean ====
section
/-! DEFINITION. Loading a program text into the store (20_memory.md R48 to R50) and reading text from UTF-8 bytes (R65). -/

namespace Sys2Proof.Machine

open Sys2Proof

/-- Whether TRIM_SET holds the character. -/
def inTrimSet (p : Params) (c : Char) : Bool := p.trimSet.elem c

/-- The text without its leading and trailing characters of TRIM_SET (20_memory.md R48). -/
def trimText (p : Params) (S : Text) : Text :=
  (((S.dropWhile (inTrimSet p)).reverse).dropWhile (inTrimSet p)).reverse

/-- The pieces between the line feeds, in order, empty ones kept (20_memory.md R50). -/
def splitLF : Text → List Line
  | [] => [[]]
  | c :: S =>
    if c = lineFeed then [] :: splitLF S
    else
      match splitLF S with
      | [] => [[c]]
      | L :: P => (c :: L) :: P

/-- The program of a text: none at all if the trimmed text is empty, else its lines (20_memory.md R48 to R50). -/
def loadProgram (p : Params) (S : Text) : List Line :=
  if trimText p S = [] then [] else splitLF (trimText p S)

/-! ## UTF-8

PRESUMED (log 10): the spec names UTF-8 and refuses what is not UTF-8, but does not define it; this is the standard's definition,
shortest forms only and no surrogates. -/

/-- The six low bits of a continuation byte, if it is one. -/
def continuation (b : Byte) : Option Nat := if 0x80 ≤ b.toNat ∧ b.toNat < 0xC0 then some (b.toNat - 0x80) else none

/-- The character of a code point, if it is a Unicode scalar value not below `least` (the shortest form). -/
def scalar (least n : Nat) : Option Char := if least ≤ n ∧ n.isValidChar then some (Char.ofNat n) else none

/-- The text that a byte string spells in UTF-8, if it is UTF-8. -/
def decodeUtf8 : List Byte → Option Text
  | [] => some []
  | b0 :: rest =>
    if b0.toNat < 0x80 then (decodeUtf8 rest).map (Char.ofNat b0.toNat :: ·)
    else if b0.toNat < 0xC0 then none
    else
      match rest with
      | [] => none
      | b1 :: rest1 =>
        match continuation b1 with
        | none => none
        | some c1 =>
          if b0.toNat < 0xE0 then
            (scalar 0x80 ((b0.toNat - 0xC0) * 64 + c1)).bind fun c => (decodeUtf8 rest1).map (c :: ·)
          else
            match rest1 with
            | [] => none
            | b2 :: rest2 =>
              match continuation b2 with
              | none => none
              | some c2 =>
                if b0.toNat < 0xF0 then
                  (scalar 0x800 (((b0.toNat - 0xE0) * 64 + c1) * 64 + c2)).bind fun c => (decodeUtf8 rest2).map (c :: ·)
                else
                  match rest2 with
                  | [] => none
                  | b3 :: rest3 =>
                    match continuation b3 with
                    | none => none
                    | some c3 =>
                      if b0.toNat < 0xF8 then
                        (scalar 0x10000 ((((b0.toNat - 0xF0) * 64 + c1) * 64 + c2) * 64 + c3)).bind fun c =>
                          (decodeUtf8 rest3).map (c :: ·)
                      else none

/-- The UTF-8 bytes of one character. -/
def utf8OfChar (c : Char) : List Byte :=
  let n := c.toNat
  let low := fun (k : Nat) => BitVec.ofNat 8 (0x80 + k % 64)
  if n < 0x80 then [BitVec.ofNat 8 n]
  else if n < 0x800 then [BitVec.ofNat 8 (0xC0 + n / 64), low n]
  else if n < 0x10000 then [BitVec.ofNat 8 (0xE0 + n / 4096), low (n / 64), low n]
  else [BitVec.ofNat 8 (0xF0 + n / 262144), low (n / 4096), low (n / 64), low n]

/-- The UTF-8 bytes of a text. -/
def encodeUtf8 (S : Text) : List Byte := S.flatMap utf8OfChar

end Sys2Proof.Machine
end

