-- ==== Sys2Proof/Machine/Render.lean ====
section
/-! DEFINITION. The status register, and the rendering of the trace to text (10_state.md, section 6 and R42). -/

namespace Sys2Proof.Machine

open Sys2Proof

/-- The code of the run state, status[2:0] (10_state.md R36, section 6). -/
def RunState.code : RunState → Nat
  | .idle => 0 | .running => 1 | .haltedNormal => 2 | .haltedError => 3 | .haltedFault => 4

/-- The code of the halt cause, status[5:3] (10_state.md R36). -/
def HaltCause.code : HaltCause → Nat
  | .none => 0 | .normal => 1 | .unknownInstruction => 2 | .commandBudget => 3 | .fetchOutOfRange => 4

/-- The status register: `rs` in bits 2..0 and `cause` in bits 5..3, a read-only view of the two (10_state.md, section 6). -/
def statusWord (s : State) : BitVec 6 := BitVec.ofNat 3 s.cause.code ++ BitVec.ofNat 3 s.rs.code

/-- UNKNOWN_MSG: it begins "Unknown command", and the rest is open (00_scope.md R9). -/
def unknownMsg : Text := "Unknown command".toList ++ Config.unknownMsgRest

/-- CLAMP_LOW_MSG: an open text that names the register (10_state.md R42). -/
def clampLowMsg (name : Text) : Text := Config.clampLowBefore name ++ name ++ Config.clampLowAfter name

/-- CLAMP_HIGH_MSG: an open text that names the register (10_state.md R42). -/
def clampHighMsg (name : Text) : Text := Config.clampHighBefore name ++ name ++ Config.clampHighAfter name

/-- `verb s to d`, the body of the two-register events. -/
def pairBody (verb : String) (s d : Reg) : Text := verb.toList ++ " ".toList ++ regName s ++ " to ".toList ++ regName d

/-- The body of an event (10_state.md R42). -/
def body : Event → Text
  | .banner => "Resetting all registers to their defaults...".toList
  | .move _ v d => "Moving ".toList ++ dec v ++ " into ".toList ++ regName d
  | .add _ s d => pairBody "Adding" s d
  | .sub _ s d => pairBody "Subtracting" s d
  | .copy _ s d => pairBody "Copying" s d
  | .and _ s d => pairBody "ANDing" s d
  | .or _ s d => pairBody "ORing" s d
  | .cmp _ s d => pairBody "Comparing" s d
  | .jeqTaken _ t => "ZX is 1 so jumping to line ".toList ++ dec t
  | .jneqTaken _ t => "ZX is 0 so jumping to line ".toList ++ dec t
  | .jmp _ t => "Jumping to line ".toList ++ dec t
  | .clampLow _ d => clampLowMsg (regName d)
  | .clampHigh _ d => clampHighMsg (regName d)
  | .unknown _ => unknownMsg
  | .tooMany _ => "Too many commands; exiting.".toList

/-- The line index an event carries; every event but BANNER carries one (10_state.md R41). -/
def eventLine? : Event → Option Nat
  | .banner => none
  | .move i _ _ => some i
  | .add i _ _ => some i
  | .sub i _ _ => some i
  | .copy i _ _ => some i
  | .and i _ _ => some i
  | .or i _ _ => some i
  | .cmp i _ _ => some i
  | .jeqTaken i _ => some i
  | .jneqTaken i _ => some i
  | .jmp i _ => some i
  | .clampLow i _ => some i
  | .clampHigh i _ => some i
  | .unknown i => some i
  | .tooMany i => some i

/-- The string of an event: "Line ", its 1-based line number, ": " and the body; BANNER has no such beginning (10_state.md R42). -/
def render (e : Event) : Text :=
  match eventLine? e with
  | some i => "Line ".toList ++ dec (i + 1) ++ ": ".toList ++ body e
  | none => body e

/-- The whole trace as the host sees it: the rendered entries in order, joined by U+000A (10_state.md R42). -/
def transcript (T : List Event) : Text := [lineFeed].intercalate (T.map render)

end Sys2Proof.Machine
end

