-- ==== Sys2Proof/Machine/HostPort.lean ====
section
/-! DEFINITION. The host interface (70_reset_and_hazards.md R205): the commands RESET and RUN(S), and the reads. A command is an
input from outside the block, so it is an operation beside `step` (log 4). -/

namespace Sys2Proof.Machine

open Sys2Proof

/-- What the host can do to the block. -/
inductive Command where
  /-- RESET (70_reset_and_hazards.md R205). -/
  | reset
  /-- RUN(S) with the text as Unicode scalar values (70_reset_and_hazards.md R205). -/
  | run (S : Text)
  /-- RUN with the text as the bytes it arrives in (20_memory.md R65). -/
  | runBytes (bytes : List Byte)
  /-- A change of the host's own program text; it reaches the block only through a later RUN (70_reset_and_hazards.md R207). -/
  | changeText (S : Text)
deriving DecidableEq, Repr

/-- RUN(S): reset; the empty program ends at once in HALTED_NORMAL; else load and enter RUNNING (40_sequencer.md R101, R103). It
does not depend on the state before it (10_state.md R45). -/
def startRun (p : Params) (S : Text) : State :=
  if trimText p S = [] then State.reset.halt .haltedNormal .normal
  else { State.reset with P := loadProgram p S, rs := .running }

/-- What the block does on a host command. While RUNNING no command is admitted (40_sequencer.md R129, 70_reset_and_hazards.md
R207; log 9). -/
def command (p : Params) (c : Command) (s : State) : Host.Outcome State Fault Refusal :=
  if s.rs = .running then
    match c with
    | .reset => .refused .commandWhileRunning
    | .run _ => .refused .commandWhileRunning
    | .runBytes _ => .refused .commandWhileRunning
    | .changeText _ => .refused .textChangeWhileRunning
  else
    match c with
    | .reset => .next State.reset
    | .run S => .next (startRun p S)
    | .runBytes bytes =>
      match decodeUtf8 bytes with
      | some S => .next (startRun p S)
      | none => .refused .invalidUtf8
    | .changeText _ => .next s

/-- One call to run a program: RUN, then steps until the block is no longer RUNNING (40_sequencer.md R122). -/
def runCall (p : Params) (S : Text) (s : State) : Host.Outcome State Fault Refusal :=
  match command p (.run S) s with
  | .next t => runSteps p (stepBound p t) t
  | .fault r => .fault r
  | .refused r => .refused r

/-- What the host reads besides the status: regs, flag and trace (70_reset_and_hazards.md R205). -/
structure Snapshot where
  regs : RegBank
  flag : FlagBit
  trace : List Event
deriving DecidableEq, Repr, Inhabited

end Sys2Proof.Machine

namespace Sys2Proof

/-- What the host's `n`-th read sees while the block is RUNNING: any value (93_implementation_defined.md U14), so a free value
(log 8). -/
opaque Config.readWhileRunning : Nat → Machine.State → Machine.Snapshot

end Sys2Proof

namespace Sys2Proof.Machine

open Sys2Proof

/-- The host's `n`-th read of regs, flag and trace: an exact snapshot when rs is not RUNNING, any value otherwise (10_state.md
R43). It changes nothing (70_reset_and_hazards.md R209; log 17). -/
def hostRead (n : Nat) (s : State) : Snapshot :=
  if s.rs = .running then Config.readWhileRunning n s else ⟨s.x, s.zx, s.T⟩

/-- The host's read of the status register, defined at any time (70_reset_and_hazards.md R205). -/
def hostStatus (s : State) : BitVec 6 := statusWord s

end Sys2Proof.Machine
end

