-- ==== Sys2Proof/Machine/Realisation.lean ====
section
/-! DEFINITION. What the spec asks of a realisation with bounded registers (10_state.md R31, 30_encoding.md R86, 00_scope.md R9). The
machine itself is unbounded; these operations stand beside it (log 12). -/

namespace Sys2Proof.Machine

open Sys2Proof

/-- The open parameters of a realisation: K_W, MAX_LINES and PC_W; none is unbounded (00_scope.md R9). -/
structure Realisation where
  kW : Option Nat
  maxLines : Option Nat
  pcW : Option Nat
deriving DecidableEq, Repr

/-- The greatest pc that a register of `w` bits holds, read as two's complement (log 18). -/
def pcTop (w : Nat) : Int := 2 ^ (w - 1) - 1

/-- A pc register of `w` bits represents −1 and every value up to `m` (10_state.md R31). -/
def representsPc (w m : Nat) : Bool := decide (1 ≤ w) && decide ((m : Int) ≤ pcTop w)

/-- What R31 asks of PC_W: the pc register represents −1 and every value up to MAX_LINES. -/
def Realisation.conforms (r : Realisation) : Bool :=
  match r.pcW, r.maxLines with
  | some w, some m => representsPc w m
  | some _, none => false
  | none, _ => true

/-- Every literal of the program fits the realisation's literal field (30_encoding.md R86). -/
def literalsFit (r : Realisation) (P : List Line) : Bool := P.all fun L => (decode L).wellFormed r.kW

/-- The program fits the realisation's store (00_scope.md R9, U8). -/
def linesFit (r : Realisation) (P : List Line) : Bool :=
  match r.maxLines with
  | some m => decide (P.length ≤ m)
  | none => true

/-- RUN(S) on a bounded realisation: it refuses a program that it cannot hold and never gives it another meaning
(30_encoding.md R86, U7, U8); otherwise it is RUN, and the realisation goes on from the narrowed state where its pc is bounded. -/
def runBounded (r : Realisation) (p : Params) (S : Text) (s : State) : Host.Outcome State Fault Refusal :=
  if s.rs = .running then .refused .commandWhileRunning
  else if linesFit r (loadProgram p S) = false then .refused .programTooLong
  else if literalsFit r (loadProgram p S) = false then .refused .literalTooWide
  else command p (.run S) s

/-- The pc register of a realisation that saturates at `top` (10_state.md R31). -/
def saturatePc (top : Int) (s : State) : State := s.setPc (if top < s.pc then top else s.pc)

/-- A step of that realisation: the integer rule, its pc then stored with saturation (10_state.md R31). -/
def stepSaturating (p : Params) (top : Int) (s : State) : Host.Outcome State Fault Refusal :=
  mapNext (saturatePc top) (stepWith p s)

/-- The state of a realisation whose pc register has `w` bits; every other field is the machine's own (00_scope.md R9, PC_W). -/
structure BoundedState (w : Nat) where
  x : RegBank
  zx : FlagBit
  pc : BitVec w
  cnt : Nat
  rs : RunState
  cause : HaltCause
  P : List Line
  T : List Event
deriving DecidableEq, Repr

/-- A state of the machine in a realisation of `w` bits: a pc beyond the register's greatest value is stored as that value
(10_state.md R31; log 18). -/
def State.narrow (w : Nat) (s : State) : BoundedState w :=
  { x := s.x, zx := s.zx, pc := BitVec.ofInt w (saturatePc (pcTop w) s).pc, cnt := s.cnt, rs := s.rs, cause := s.cause,
    P := s.P, T := s.T }

/-- The machine's state that a realisation's state stands for: its pc register read as two's complement (log 18). -/
def BoundedState.widen {w : Nat} (b : BoundedState w) : State :=
  { x := b.x, zx := b.zx, pc := b.pc.toInt, cnt := b.cnt, rs := b.rs, cause := b.cause, P := b.P, T := b.T }

/-- One step of a realisation with a pc register of `w` bits: the step of the machine on the register's value, its pc stored back
in the register (10_state.md R31). -/
def stepBounded {w : Nat} (p : Params) (b : BoundedState w) : Host.Outcome (BoundedState w) Fault Refusal :=
  mapNext (State.narrow w) (stepWith p b.widen)

/-- At most `k` steps of that realisation, ending as soon as it is no longer RUNNING. -/
def runStepsBounded {w : Nat} (p : Params) : Nat → BoundedState w → Host.Outcome (BoundedState w) Fault Refusal
  | 0, b => .next b
  | k + 1, b =>
    if b.rs = .running then
      match stepBounded p b with
      | .next c => runStepsBounded p k c
      | .fault r => .fault r
      | .refused r => .refused r
    else .next b

/-- The two-update jump in a register of `w` bits: pc ← t − 2, then pc ← pc + 1 (40_sequencer.md R115). -/
def twoUpdateTarget (w t : Nat) : BitVec w := (BitVec.ofNat w t - 2#w) + 1#w

end Sys2Proof.Machine
end

