-- ==== Sys2Proof/Safety.lean ====
section
/-! DEFINITION. What the claims speak of: the invariant of the machine at rest, the states it can reach, and what counts as a run
that ends well. -/

namespace Sys2Proof.Machine

open Sys2Proof

/-- An event that reports a fatal error (60_exceptions.md R180). -/
def isErrorEvent : Event → Bool
  | .unknown _ => true
  | .tooMany _ => true
  | .banner => false
  | .move _ _ _ => false
  | .add _ _ _ => false
  | .sub _ _ _ => false
  | .copy _ _ _ => false
  | .and _ _ _ => false
  | .or _ _ _ => false
  | .cmp _ _ _ => false
  | .jeqTaken _ _ => false
  | .jneqTaken _ _ => false
  | .jmp _ _ => false
  | .clampLow _ _ => false
  | .clampHigh _ _ => false

/-- A clamp warning (60_exceptions.md R177). -/
def isWarning : Event → Bool
  | .clampLow _ _ => true
  | .clampHigh _ _ => true
  | .unknown _ => false
  | .tooMany _ => false
  | .banner => false
  | .move _ _ _ => false
  | .add _ _ _ => false
  | .sub _ _ _ => false
  | .copy _ _ _ => false
  | .and _ _ _ => false
  | .or _ _ _ => false
  | .cmp _ _ _ => false
  | .jeqTaken _ _ => false
  | .jneqTaken _ _ => false
  | .jmp _ _ => false

/-- The action event of an instruction at line `i`, as the tables of 10_state.md R41 and 42_control_transfer.md give it; none for a
line that emits no action event. -/
def actionEvent (i : Nat) : Instr → Option Event
  | .mov k d => some (.move i k d)
  | .add s d => some (.add i s d)
  | .sub s d => some (.sub i s d)
  | .copy s d => some (.copy i s d)
  | .and s d => some (.and i s d)
  | .or s d => some (.or i s d)
  | .cmp s d => some (.cmp i s d)
  | .jeq t => some (.jeqTaken i t)
  | .jneq t => some (.jneqTaken i t)
  | .jmp t => some (.jmp i t)
  | .comment => none
  | .invalid => none

/-- A register operation (41_register_ops.md). -/
def isRegisterOp : Instr → Bool
  | .mov _ _ => true
  | .add _ _ => true
  | .sub _ _ => true
  | .copy _ _ => true
  | .and _ _ => true
  | .or _ _ => true
  | .cmp _ _ => true
  | .jeq _ => false
  | .jneq _ => false
  | .jmp _ => false
  | .comment => false
  | .invalid => false

/-- A jump (42_control_transfer.md). -/
def isJump : Instr → Bool
  | .jeq _ => true
  | .jneq _ => true
  | .jmp _ => true
  | .mov _ _ => false
  | .add _ _ => false
  | .sub _ _ => false
  | .copy _ _ => false
  | .and _ _ => false
  | .or _ _ => false
  | .cmp _ _ => false
  | .comment => false
  | .invalid => false

/-- The state outside the registers, the flag, the pc and the trace is the same: the counter, the run state, the cause and the
program store. -/
def SameControl (s t : State) : Prop := t.cnt = s.cnt ∧ t.rs = s.rs ∧ t.cause = s.cause ∧ t.P = s.P

/-- What a register operation leaves behind: register `d` holds `v`, every other register its old value, the pc is one further,
the trace has grown by `es`, and nothing else but the flag may differ. -/
def RegisterResult (s t : State) (d : Reg) (v : Nat) (es : List Event) : Prop :=
  (readReg t d).toNat = v ∧ (∀ r, r ≠ d → readReg t r = readReg s r) ∧ t.pc = s.pc + 1 ∧ t.T = s.T ++ es ∧ SameControl s t

/-- A character that some line of the ten instructions can hold: a mnemonic's or register's letter, a digit, a space or a comma
(30_encoding.md R69 to R74). -/
def isGrammarChar (c : Char) : Bool :=
  isDigit c ||
    ['A', 'B', 'C', 'D', 'E', 'F', 'G', 'H', 'J', 'M', 'N', 'O', 'P', 'Q', 'R', 'S', 'U', 'V', 'X', 'Y', ' ', ','].elem c

/-- The two fields of the status register agree (10_state.md, section 6). -/
def statusAgrees (s : State) : Bool :=
  match s.rs, s.cause with
  | .idle, .none => true
  | .running, .none => true
  | .haltedNormal, .normal => true
  | .haltedError, .unknownInstruction => true
  | .haltedError, .commandBudget => true
  | .haltedFault, .fetchOutOfRange => true
  | _, _ => false

/-- Every event after the banner names a line of the program (10_state.md R41). -/
def eventsInProgram (s : State) : Prop := ∀ e ∈ s.T.tail, ∃ i, eventLine? e = some i ∧ i < s.P.length

/-- What each run state says of the pc, the counter and the trace (10_state.md R33, 40_sequencer.md R116, R125, 60_exceptions.md R185,
70_reset_and_hazards.md R210). -/
def runStateFacts (p : Params) (s : State) : Prop :=
  match s.rs with
  | .idle => s = State.reset
  | .running => -1 ≤ s.pc ∧ s.cnt < p.budget ∧ s.P ≠ [] ∧ ∀ e ∈ s.T, isErrorEvent e = false
  | .haltedNormal => (s.P.length : Int) ≤ s.pc ∧ s.cnt < p.budget ∧ ∀ e ∈ s.T, isErrorEvent e = false
  | .haltedFault => s.pc = -1 ∧ s.cnt < p.budget ∧ ∀ e ∈ s.T, isErrorEvent e = false
  | .haltedError =>
    ∃ T0 e, s.T = T0 ++ [e] ∧ (∀ e ∈ T0, isErrorEvent e = false) ∧
      ((s.cause = .unknownInstruction ∧ s.cnt < p.budget ∧ 0 ≤ s.pc ∧ s.pc < s.P.length ∧ e = .unknown s.pc.toNat) ∨
        (s.cause = .commandBudget ∧ s.cnt = p.budget ∧ -1 ≤ s.pc ∧ ∃ i, e = .tooMany i))

/-- The invariant of the machine at rest. -/
structure Inv (p : Params) (s : State) : Prop where
  status : statusAgrees s = true
  lines : storeWf s.P = true
  banner : s.T.head? = some .banner
  events : eventsInProgram s
  facts : runStateFacts p s

/-- The states the block can reach: from power-on, by steps and by host commands (40_sequencer.md R126). -/
inductive Reachable (p : Params) : State → Prop
  | powerOn : Reachable p State.reset
  | byStep {s t : State} : Reachable p s → stepWith p s = .next t → Reachable p t
  | byCommand {s t : State} (c : Command) : Reachable p s → command p c s = .next t → Reachable p t

/-- A run of `S` is safe when it ends in HALTED_NORMAL: no invalid line reached, no budget halt, no fetch fault
(70_reset_and_hazards.md R210). -/
def SafeRun (p : Params) (S : Text) : Prop :=
  ∃ t, runCall p S State.reset = .next t ∧ t.rs = .haltedNormal

end Sys2Proof.Machine
end

