-- ==== Sys2Proof/Certificates/Slice0/Obligations.lean ====
section
/-! DEFINITION. The statements for the provers. Each docstring names the rule of spec/ it formalises; where a clause rests on a
choice of the spec's own decisions or of the model, it says so. -/

open Sys2Proof Sys2Proof.Machine

/-! ## Register operations -/

/-- 41_register_ops.md R133. MOV completes in every state: the destination holds the literal saturated at 255, a literal above 255
adds one CLAMP_HIGH after MOVE, ZX stays. The order of the two events is the spec's decision D13. -/
def Obligations.MovWritesTheSaturatedLiteral : Prop :=
  ∀ (k : Nat) (d : Reg) (s : State), ∃ t, exec (.mov k d) s = .next t ∧ t.zx = s.zx ∧
    RegisterResult s t d (min k 255)
      ([.move (lineIndex s) k d] ++ (if 255 < k then [.clampHigh (lineIndex s) d] else []))

/-- 41_register_ops.md R134. ADD completes in every state with the saturated sum; a sum above 255 adds one CLAMP_HIGH after ADD. The
order of the two events is the spec's decision D13. -/
def Obligations.AddWritesTheSaturatedSum : Prop :=
  ∀ (src d : Reg) (s : State), ∃ t, exec (.add src d) s = .next t ∧ t.zx = s.zx ∧
    RegisterResult s t d (min ((readReg s src).toNat + (readReg s d).toNat) 255)
      ([.add (lineIndex s) src d] ++
        (if 255 < (readReg s src).toNat + (readReg s d).toNat then [.clampHigh (lineIndex s) d] else []))

/-- 41_register_ops.md R135. SUB completes in every state with destination minus source saturated at 0 (subtraction of natural numbers
here); a smaller destination adds one CLAMP_LOW after SUB. The order of the two events is the spec's decision D13. -/
def Obligations.SubWritesTheSaturatedDifference : Prop :=
  ∀ (src d : Reg) (s : State), ∃ t, exec (.sub src d) s = .next t ∧ t.zx = s.zx ∧
    RegisterResult s t d ((readReg s d).toNat - (readReg s src).toNat)
      ([.sub (lineIndex s) src d] ++
        (if (readReg s d).toNat < (readReg s src).toNat then [.clampLow (lineIndex s) d] else []))

/-- 41_register_ops.md R136. COPY completes in every state: the destination holds the source's value, the one event is COPY (a clamp never
fires), ZX stays; the source register is unchanged; with source and destination the same no register changes, and the event is still
emitted and the instruction still counted. -/
def Obligations.CopyWritesTheSource : Prop :=
  ∀ (src d : Reg) (s : State), ∃ t, exec (.copy src d) s = .next t ∧ t.zx = s.zx ∧
    RegisterResult s t d (readReg s src).toNat [.copy (lineIndex s) src d] ∧ readReg t src = readReg s src ∧
    (src = d → t.x = s.x) ∧ counts (.copy src d) = true

/-- 41_register_ops.md R137. AND completes in every state with the bitwise conjunction, no warning, and leaves ZX. That AND is bitwise
is the spec's decision D12. -/
def Obligations.AndIsBitwise : Prop :=
  ∀ (src d : Reg) (s : State), ∃ t, exec (.and src d) s = .next t ∧ t.zx = s.zx ∧
    RegisterResult s t d ((readReg s d).toNat &&& (readReg s src).toNat) [.and (lineIndex s) src d]

/-- 41_register_ops.md R138. OR completes in every state with the bitwise disjunction, no warning, and leaves ZX. That OR is bitwise is
the spec's decision D12. -/
def Obligations.OrIsBitwise : Prop :=
  ∀ (src d : Reg) (s : State), ∃ t, exec (.or src d) s = .next t ∧ t.zx = s.zx ∧
    RegisterResult s t d ((readReg s d).toNat ||| (readReg s src).toNat) [.or (lineIndex s) src d]

/-- 41_register_ops.md R139. CMP completes in every state: ZX is 1 exactly when the two registers are equal and 0 otherwise, no register
changes, the one event is CMP. The clamp check it keeps (the spec's decision D16) has no effect. -/
def Obligations.CmpSetsZxToEquality : Prop :=
  ∀ (src d : Reg) (s : State), ∃ t, exec (.cmp src d) s = .next t ∧ t.x = s.x ∧
    t.zx.toNat = (if (readReg s d).toNat = (readReg s src).toNat then 1 else 0) ∧
    RegisterResult s t d (readReg s d).toNat [.cmp (lineIndex s) src d]

/-- 41_register_ops.md R141, for every instruction of the family in every state: pc + 1, the counter and the run state as they were,
exactly one action event and at most one clamp warning, in whatever order. -/
def Obligations.RegisterOpsFollowTheFamilyRule : Prop :=
  ∀ (i : Instr) (s : State), isRegisterOp i = true → ∃ t e es, exec i s = .next t ∧ t.pc = s.pc + 1 ∧ SameControl s t ∧
    actionEvent (lineIndex s) i = some e ∧ t.T = s.T ++ es ∧ (es.filter fun a => !isWarning a) = [e] ∧
    (es.filter isWarning).length ≤ 1

/-- 40_sequencer.md R112: when source and destination are one register, the instruction uses its old value for both. -/
def Obligations.OperandsAreReadBeforeTheWrite : Prop :=
  ∀ (r : Reg) (s : State),
    (∃ t, exec (.add r r) s = .next t ∧ (readReg t r).toNat = min ((readReg s r).toNat + (readReg s r).toNat) 255) ∧
    (∃ t, exec (.sub r r) s = .next t ∧ (readReg t r).toNat = 0 ∧ t.T = s.T ++ [.sub (lineIndex s) r r]) ∧
    (∃ t, exec (.copy r r) s = .next t ∧ readReg t r = readReg s r) ∧
    (∃ t, exec (.and r r) s = .next t ∧ readReg t r = readReg s r) ∧
    (∃ t, exec (.or r r) s = .next t ∧ readReg t r = readReg s r) ∧
    (∃ t, exec (.cmp r r) s = .next t ∧ readReg t r = readReg s r ∧ t.zx = 1)

/-- 41_register_ops.md R131: saturation to [0, 255], not wrap-around; a value in the range adds no log entry. -/
def Obligations.ClampSaturates : Prop :=
  ∀ v : Int, (v < 0 → clamp v = 0) ∧ (255 < v → clamp v = 255) ∧ (0 ≤ v → v ≤ 255 → clamp v = v) ∧
    ((clampByte v).toNat : Int) = clamp v ∧ (0 ≤ v → v ≤ 255 → ∀ i d, clampWarning i d v = none)

/-! ## Control transfer -/

/-- 42_control_transfer.md R152, the effect of one JEQ in every state; a taken jump to line 0 leaves pc = −1. -/
def Obligations.JeqJumpsWhenZxIsOne : Prop :=
  ∀ (k : Nat) (s : State), ∃ t, exec (.jeq k) s = .next t ∧ t.x = s.x ∧ t.zx = s.zx ∧ SameControl s t ∧
    (s.zx = 1 → t.pc = (k : Int) - 1 ∧ t.T = s.T ++ [.jeqTaken (lineIndex s) k]) ∧
    (s.zx = 0 → t.pc = s.pc + 1 ∧ t.T = s.T)

/-- 42_control_transfer.md R153, the effect of one JNEQ in every state. -/
def Obligations.JneqJumpsWhenZxIsZero : Prop :=
  ∀ (k : Nat) (s : State), ∃ t, exec (.jneq k) s = .next t ∧ t.x = s.x ∧ t.zx = s.zx ∧ SameControl s t ∧
    (s.zx = 0 → t.pc = (k : Int) - 1 ∧ t.T = s.T ++ [.jneqTaken (lineIndex s) k]) ∧
    (s.zx = 1 → t.pc = s.pc + 1 ∧ t.T = s.T)

/-- 42_control_transfer.md R154, the effect of one JMP in every state. -/
def Obligations.JmpAlwaysJumps : Prop :=
  ∀ (k : Nat) (s : State), ∃ t, exec (.jmp k) s = .next t ∧ t.x = s.x ∧ t.zx = s.zx ∧ SameControl s t ∧
    t.pc = (k : Int) - 1 ∧ t.T = s.T ++ [.jmp (lineIndex s) k]

/-- 42_control_transfer.md R151, for every jump in every state: it writes no register and no flag and reads no register (with another
bank in its place the outcome differs in the bank alone); taken, it emits exactly one event and its next pc is t − 1; not taken, no
event and i + 1; it counts toward the budget either way; it never warns of a clamp. -/
def Obligations.JumpsFollowTheCommonRule : Prop :=
  ∀ (i : Instr) (s : State), isJump i = true →
    counts i = true ∧
    (∀ b : RegBank, exec i { s with x := b } = mapNext (fun u => { u with x := b }) (exec i s)) ∧
    ∃ t k, exec i s = .next t ∧ i.literal? = some k ∧ t.x = s.x ∧ t.zx = s.zx ∧ SameControl s t ∧
      (jumpTaken i s = true → t.pc = (k : Int) - 1 ∧ ∃ e, actionEvent (lineIndex s) i = some e ∧ t.T = s.T ++ [e]) ∧
      (jumpTaken i s = false → t.pc = s.pc + 1 ∧ t.T = s.T)

/-- 42_control_transfer.md R155, the step after a jump to line `k` in a program of n lines: line 0 raises the fetch fault, lines 1 to n
are fetched, a line beyond n ends the run normally. That line 0 faults is the spec's decision D5. -/
def Obligations.JumpTargetDecidesTheNextStep : Prop :=
  ∀ (p : Params) (k : Nat) (s : State), s.rs = .running → s.pc = targetPc k →
    (k = 0 → s.pc = -1 ∧ stepWith p s = .next s.fetchFault) ∧
    (1 ≤ k → k ≤ s.P.length → ∃ L, s.P[k - 1]? = some L ∧ fetch s = .line L) ∧
    (s.P.length < k → stepWith p s = .next s.loopExit)

/-! ## Comment and invalid lines -/

/-- 43_comment_and_invalid.md R166, the effect of the COMMENT record in every state: the pc alone moves. -/
def Obligations.CommentMovesOnlyThePc : Prop :=
  ∀ s : State, exec .comment s = .next { s with pc := s.pc + 1 } ∧ counts .comment = false

/-- 43_comment_and_invalid.md R167, the effect of the INVALID record in every state: UNKNOWN(i), then the halt; pc, cnt, the registers
and ZX stay. The cause's name is the spec's decision D18. -/
def Obligations.InvalidHaltsWhereItStands : Prop :=
  ∀ s : State, counts .invalid = false ∧
    exec .invalid s =
      .next { s with T := s.T ++ [.unknown (lineIndex s)], rs := .haltedError, cause := .unknownInstruction }

/-! ## The sequencer -/

/-- 40_sequencer.md R104, R107, R109, R111: while RUNNING with a line at the pc, the step is `exec` of the decoded line and then the
sequencer's `retire` of it; `step` is that with the default parameters. -/
def Obligations.StepRunsTheDecodedLine : Prop :=
  ∀ (s t : State) (L : Line), s.rs = .running → 0 ≤ s.pc → s.P[s.pc.toNat]? = some L → exec (decode L) s = .next t →
    (∀ p : Params, stepWith p s = .next (retire p (decode L) (lineIndex s) t)) ∧
    step s = .next (retire Params.default (decode L) (lineIndex s) t)

/-- 40_sequencer.md R113, R116: what `retire` adds to a line that counts, in every state: cnt + 1, and below the budget nothing more; at
the budget TOO_MANY and the halt, with every effect of the instruction kept. A line that does not count is left alone. The line the
event names is the spec's decision D14. -/
def Obligations.RetireCountsAndTestsTheBudget : Prop :=
  ∀ (p : Params) (i : Instr) (line : Nat) (t : State),
    (counts i = false → retire p i line t = t) ∧
    (counts i = true → t.cnt + 1 < p.budget → retire p i line t = { t with cnt := t.cnt + 1 }) ∧
    (counts i = true → p.budget ≤ t.cnt + 1 → retire p i line t =
      { t with cnt := t.cnt + 1, T := t.T ++ [.tooMany line], rs := .haltedError, cause := .commandBudget })

/-- 40_sequencer.md R117. -/
def Obligations.HaltSetsOnlyRunStateAndCause : Prop :=
  ∀ (s : State) (r : RunState) (c : HaltCause), (s.halt r c).rs = r ∧ (s.halt r c).cause = c ∧ (s.halt r c).x = s.x ∧
    (s.halt r c).zx = s.zx ∧ (s.halt r c).pc = s.pc ∧ (s.halt r c).cnt = s.cnt ∧ (s.halt r c).P = s.P ∧ (s.halt r c).T = s.T

/-- 40_sequencer.md R105: a step that begins at or beyond the end halts normally and changes nothing else. That the exit is a step of
its own is the spec's decision D31. -/
def Obligations.StepPastTheEndHaltsNormally : Prop :=
  ∀ (p : Params) (s : State), s.rs = .running → (s.P.length : Int) ≤ s.pc →
    stepWith p s = .next { s with rs := .haltedNormal, cause := .normal }

/-- 40_sequencer.md R106: a step that begins below 0 raises the fetch fault and changes nothing else. The fault is the spec's decision
D5. -/
def Obligations.StepBelowZeroRaisesTheFetchFault : Prop :=
  ∀ (p : Params) (s : State), s.rs = .running → s.pc < 0 →
    stepWith p s = .next { s with rs := .haltedFault, cause := .fetchOutOfRange }

/-- 40_sequencer.md R108: a line that begins with `#` moves the pc by 1 and does nothing else. -/
def Obligations.CommentLineStep : Prop :=
  ∀ (p : Params) (s : State) (rest : Line), s.rs = .running → 0 ≤ s.pc → s.P[s.pc.toNat]? = some ('#' :: rest) →
    stepWith p s = .next { s with pc := s.pc + 1 }

/-- 40_sequencer.md R110: an invalid line emits UNKNOWN and halts, and the step changes neither pc nor cnt nor a register nor the
flag. -/
def Obligations.InvalidLineStep : Prop :=
  ∀ (p : Params) (s : State) (L : Line), s.rs = .running → 0 ≤ s.pc → s.P[s.pc.toNat]? = some L → decode L = .invalid →
    stepWith p s =
      .next { s with T := s.T ++ [.unknown s.pc.toNat], rs := .haltedError, cause := .unknownInstruction }

/-- 40_sequencer.md R118: outside RUNNING no step changes anything. That the model then answers the same state is its own choice
(log 3). -/
def Obligations.OutsideRunningNothingChanges : Prop :=
  ∀ (p : Params) (s : State), s.rs ≠ .running → stepWith p s = .next s ∧ ∀ k, runSteps p k s = .next s

/-- 40_sequencer.md R113: over one step that reaches a line, cnt rises by 1 exactly if the line is an executed instruction, a jump taken or
not among them; comment and invalid lines leave it. -/
def Obligations.EveryExecutedInstructionIsCounted : Prop :=
  ∀ (p : Params) (s t : State) (L : Line), s.rs = .running → fetch s = .line L → stepWith p s = .next t →
    t.cnt = s.cnt + (if decode L = .comment ∨ decode L = .invalid then 0 else 1)

/-- 40_sequencer.md R114: every executed instruction but a taken jump leaves pc = i + 1, a non-taken conditional jump among them, in
`exec` and over the whole step. -/
def Obligations.SequentialAdvance : Prop :=
  ∀ (i : Instr) (s : State), counts i = true → jumpTaken i s = false →
    (∃ t, exec i s = .next t ∧ t.pc = s.pc + 1) ∧
    ∀ (p : Params) (L : Line) (t : State), s.rs = .running → fetch s = .line L → decode L = i → stepWith p s = .next t →
      t.pc = s.pc + 1

/-- 40_sequencer.md R116, R124, R125: the instruction that reaches the budget keeps every effect, its pc update among them even where it
leaves the program, and the same step ends in HALTED_ERROR. The line TOO_MANY names is the spec's decision D14. -/
def Obligations.BudgetHaltKeepsTheInstruction : Prop :=
  ∀ (p : Params) (s u : State) (L : Line), s.rs = .running → fetch s = .line L → counts (decode L) = true →
    p.budget ≤ s.cnt + 1 → exec (decode L) s = .next u →
    stepWith p s = .next { u with
      cnt := s.cnt + 1, T := u.T ++ [.tooMany (lineIndex s)], rs := .haltedError, cause := .commandBudget }

/-- 60_exceptions.md R181, R188: the block raises nothing but its own halts, so in every state the step, and the meaning of every
instruction, answers a next state. Outside RUNNING the spec takes no step; that the model then answers the same state is its own
choice (log 3). -/
def Obligations.NothingFaultsOrIsRefused : Prop :=
  (∀ (i : Instr) (s : State), ∃ t, exec i s = .next t) ∧ ∀ (p : Params) (s : State), ∃ t, stepWith p s = .next t

/-- 40_sequencer.md R126, the rows for steps: which step leads from RUNNING to which run state. HALTED_FAULT is the spec's decision
D5. -/
def Obligations.RunStateTransitions : Prop :=
  ∀ (p : Params) (s t : State), s.rs = .running → stepWith p s = .next t →
    (t.rs = .haltedNormal ↔ (s.P.length : Int) ≤ s.pc) ∧
    (t.rs = .haltedFault ↔ s.pc < 0) ∧
    (t.rs = .haltedError ↔ ∃ L, fetch s = .line L ∧
      (decode L = .invalid ∨ (counts (decode L) = true ∧ p.budget ≤ s.cnt + 1))) ∧
    t.rs ≠ .idle

/-- 20_memory.md R53, R63: no instruction and no number of steps changes the program store, and every fetch of one index in a run
returns the same line. 70_reset_and_hazards.md R206, R207, R209: a change of the host's own text is not taken during a run, and
outside one it changes nothing in the block; the latter is the model's inference (log 9). -/
def Obligations.ProgramStoreIsReadOnly : Prop :=
  (∀ (i : Instr) (s t : State), exec i s = .next t → t.P = s.P) ∧
  (∀ (p : Params) (k : Nat) (s t : State), runSteps p k s = .next t →
    t.P = s.P ∧ (t.pc = s.pc → fetch t = fetch s)) ∧
  (∀ (p : Params) (S : Text) (s t : State), command p (.changeText S) s = .next t → s.rs ≠ .running ∧ t = s)

/-- 10_state.md R40: within a run no entry is removed or reordered, so the trace before is a beginning of the trace after; a reset leaves
the banner alone; a change of the host's text writes nothing to it. -/
def Obligations.TraceIsAppendOnly : Prop :=
  (∀ (p : Params) (k : Nat) (s t : State), runSteps p k s = .next t → s.T <+: t.T) ∧
  (∀ (p : Params) (s t : State), command p .reset s = .next t → t.T = [.banner]) ∧
  (∀ (p : Params) (S : Text) (s t : State), command p (.changeText S) s = .next t → t.T = s.T)

/-- 40_sequencer.md R121, 60_exceptions.md R184: the events of one step of an executed instruction, in order: its action event (none for a
jump not taken), at most one clamp warning, then TOO_MANY if the count reaches the budget. The orders are the spec's inferences and its
decision D13. -/
def Obligations.EventsOfOneStepComeInOrder : Prop :=
  ∀ (p : Params) (s t : State) (L : Line), s.rs = .running → fetch s = .line L → counts (decode L) = true →
    stepWith p s = .next t →
    ∃ w, t.T = s.T ++
        (if isJump (decode L) = true ∧ jumpTaken (decode L) s = false then []
          else (actionEvent (lineIndex s) (decode L)).toList) ++
        w ++ (if p.budget ≤ s.cnt + 1 then [.tooMany (lineIndex s)] else []) ∧
      w.length ≤ 1 ∧ ∀ e ∈ w, isWarning e = true

/-- 10_state.md R28: ZX holds 0 or 1; CMP writes it and no other instruction does; JEQ and JNEQ read it and no other instruction does, so
with another ZX in its place every other instruction does the same and keeps that ZX, and CMP overwrites it; reset writes 0. -/
def Obligations.ZxBelongsToCmpJeqJneq : Prop :=
  (∀ s : State, s.zx = 0 ∨ s.zx = 1) ∧
  (∀ (src d : Reg) (s : State), ∃ t, exec (.cmp src d) s = .next t ∧ (t.zx = 1 ↔ readReg s src = readReg s d)) ∧
  (∀ (i : Instr) (s t : State), exec i s = .next t → t.zx ≠ s.zx → ∃ src d, i = .cmp src d) ∧
  (∀ (k : Nat) (s : State), (jumpTaken (.jeq k) s = true ↔ s.zx = 1) ∧ (jumpTaken (.jneq k) s = true ↔ s.zx = 0)) ∧
  (∀ (i : Instr) (s : State) (v : FlagBit), (∀ k, i ≠ .jeq k) → (∀ k, i ≠ .jneq k) →
    exec i (s.setZx v) =
      match i with
      | .cmp _ _ => exec i s
      | _ => mapNext (fun u => u.setZx v) (exec i s)) ∧
  (∀ (p : Params) (s t : State), command p .reset s = .next t → t.zx = 0)

/-! ## Reset, RUN and the host's reads -/

/-- 10_state.md R44, 40_sequencer.md R102: the value of every piece of state after RESET. `cause` and the empty store are the spec's
decisions D18 and D30. -/
def Obligations.ResetGivesEveryResetValue : Prop :=
  ∀ (p : Params) (s : State), s.rs ≠ .running → ∃ t, command p .reset s = .next t ∧ t = core.reset ∧
    (∀ r, readReg t r = 0) ∧ t.zx = 0 ∧ t.pc = 0 ∧ t.cnt = 0 ∧ t.T = [.banner] ∧ t.rs = .idle ∧ t.cause = .none ∧ t.P = []

/-- 40_sequencer.md R103: an empty trimmed text ends the run at once, with nothing executed and the banner alone in the trace. -/
def Obligations.EmptyProgramEndsAtOnce : Prop :=
  ∀ (p : Params) (S : Text) (s : State), s.rs ≠ .running → trimText p S = [] →
    ∃ t, command p (.run S) s = .next t ∧ runCall p S s = .next t ∧ t.rs = .haltedNormal ∧ t.cause = .normal ∧
      t.T = [.banner] ∧ t.cnt = 0 ∧ t.P = [] ∧ t.pc = 0 ∧ t.zx = 0 ∧ ∀ r, readReg t r = 0

/-- 40_sequencer.md R101: RUN of a text that is not empty after the trim resets, loads its lines and enters RUNNING at line index 0. -/
def Obligations.RunLoadsTheTrimmedText : Prop :=
  ∀ (p : Params) (S : Text) (s : State), s.rs ≠ .running → trimText p S ≠ [] →
    ∃ t, command p (.run S) s = .next t ∧ t.P = splitLF (trimText p S) ∧ t.P ≠ [] ∧ t.rs = .running ∧ t.cause = .none ∧
      t.pc = 0 ∧ t.cnt = 0 ∧ t.zx = 0 ∧ t.T = [.banner] ∧ ∀ r, readReg t r = 0

/-- 10_state.md R45: no state survives from one run to the next, so RUN and the whole run after it do not depend on the state before. -/
def Obligations.NoStateSurvivesARun : Prop :=
  ∀ (p : Params) (S : Text) (s s' : State), s.rs ≠ .running → s'.rs ≠ .running →
    command p (.run S) s = command p (.run S) s' ∧ runCall p S s = runCall p S s'

/-- 40_sequencer.md R129, 70_reset_and_hazards.md R207: while RUNNING no host command has a transition. The refusals are the spec's
treatment U1 and U15. -/
def Obligations.CommandsAreRefusedWhileRunning : Prop :=
  ∀ (p : Params) (s : State), s.rs = .running →
    command p .reset s = .refused .commandWhileRunning ∧
    (∀ S, command p (.run S) s = .refused .commandWhileRunning) ∧
    (∀ b, command p (.runBytes b) s = .refused .commandWhileRunning) ∧
    (∀ S, command p (.changeText S) s = .refused .textChangeWhileRunning)

/-- 20_memory.md R65: the reading of UTF-8 is exact in both directions, so RUN from bytes is RUN of the text they spell, and bytes that
spell none are refused. UTF-8 itself is the model's (log 10). -/
def Obligations.RunFromBytesIsRunOfTheText : Prop :=
  (∀ S : Text, decodeUtf8 (encodeUtf8 S) = some S) ∧
  (∀ (b : List Byte) (S : Text), decodeUtf8 b = some S → encodeUtf8 S = b) ∧
  (∀ (p : Params) (S : Text) (s : State), s.rs ≠ .running →
    command p (.runBytes (encodeUtf8 S)) s = command p (.run S) s) ∧
  (∀ (p : Params) (b : List Byte) (s : State), s.rs ≠ .running → (∀ S, encodeUtf8 S ≠ b) →
    command p (.runBytes b) s = .refused .invalidUtf8)

/-- 10_state.md R43: outside RUNNING every read of regs, flag and trace is exact. While RUNNING it is a free value, of which nothing is
stated (the spec's treatment U14; log 8). -/
def Obligations.ReadsAreExactOutsideRunning : Prop :=
  ∀ (n : Nat) (s : State), s.rs ≠ .running →
    (hostRead n s).regs = s.x ∧ (hostRead n s).flag = s.zx ∧ (hostRead n s).trace = s.T

/-- 10_state.md R36 and section 6: the status register's layout at any time, `rs` in bits 2..0 and `cause` in bits 5..3, the code of
every run state and of every halt cause, and that the two fields can be read back. The layout and the codes are the spec's decision
D18. -/
def Obligations.StatusRegisterLayout : Prop :=
  (RunState.idle.code = 0 ∧ RunState.running.code = 1 ∧ RunState.haltedNormal.code = 2 ∧ RunState.haltedError.code = 3 ∧
    RunState.haltedFault.code = 4) ∧
  (HaltCause.none.code = 0 ∧ HaltCause.normal.code = 1 ∧ HaltCause.unknownInstruction.code = 2 ∧
    HaltCause.commandBudget.code = 3 ∧ HaltCause.fetchOutOfRange.code = 4) ∧
  ∀ s : State, (hostStatus s).toNat = s.rs.code + 8 * s.cause.code ∧ s.rs.code ≤ 4 ∧ s.cause.code ≤ 4 ∧
    ((hostStatus s).extractLsb' 0 3).toNat = s.rs.code ∧ ((hostStatus s).extractLsb' 3 3).toNat = s.cause.code ∧
    ∀ t : State, hostStatus t = hostStatus s → t.rs = s.rs ∧ t.cause = s.cause

/-! ## Whole runs and the invariant -/

/-- 40_sequencer.md R122, R123: every run halts. From any state outside RUNNING, RUN and at most (BUDGET + 1) · (n + 1) steps end outside
RUNNING. -/
def Obligations.EveryRunHalts : Prop :=
  ∀ (p : Params) (S : Text) (s : State), s.rs ≠ .running →
    ∃ t u, command p (.run S) s = .next t ∧ runSteps p ((p.budget + 1) * (t.P.length + 1)) t = .next u ∧ u.rs ≠ .running ∧
      runCall p S s = .next u

/-- 70_reset_and_hazards.md R210, 10_state.md R33: a run that ends in HALTED_NORMAL has cause NORMAL, its pc at or beyond the end, fewer
than BUDGET instructions executed, and no error event in its trace. -/
def Obligations.NormalEndReportsNoError : Prop :=
  ∀ (p : Params) (S : Text) (s u : State), runCall p S s = .next u → u.rs = .haltedNormal →
    u.cause = .normal ∧ (u.P.length : Int) ≤ u.pc ∧ u.cnt < p.budget ∧ u.P = loadProgram p S ∧ ∀ e ∈ u.T, isErrorEvent e = false

/-- The invariant at rest (10_state.md R33, R34, R36, R41, 20_memory.md R47, 60_exceptions.md R185) is kept by every step from every state
that meets it: the counter stays within the budget, the status fields agree, every event names a line of the program, and each run
state says what it must of pc, counter and trace. -/
def Obligations.EveryStepKeepsTheInvariant : Prop :=
  ∀ (p : Params) (s t : State), Inv p s → stepWith p s = .next t → Inv p t

/-- The reset state meets the invariant, whatever the parameters. -/
def Obligations.ResetMeetsTheInvariant : Prop :=
  ∀ p : Params, Inv p core.reset

/-- Every host command keeps the invariant; RESET and RUN bring it about from any state at all outside RUNNING. -/
def Obligations.CommandsKeepTheInvariant : Prop :=
  (∀ (p : Params) (c : Command) (s t : State), Inv p s → command p c s = .next t → Inv p t) ∧
  (∀ (p : Params) (s t : State), command p .reset s = .next t → Inv p t) ∧
  (∀ (p : Params) (S : Text) (s t : State), command p (.run S) s = .next t → Inv p t)

/-! ## The decoder -/

/-- Decoding the line that the encoder writes gives the instruction back, for every instruction and every operand (30_encoding.md R72 to
R78). -/
def Obligations.DecodeReadsTheEncoderBack : Prop :=
  ∀ i : Instr, decode (encode i) = i

/-- 30_encoding.md R72 to R79: the decoder answers an instruction exactly on the lines of its format, whatever the digits, and INVALID
exactly on the lines of no format. -/
def Obligations.DecodeRecognisesExactlyTheFormats : Prop :=
  (∀ (L : Line) (i : Instr), i ≠ .invalid → (decode L = i ↔ formatOf i L)) ∧
  (∀ L : Line, decode L = .invalid ↔ ∀ i, ¬ formatOf i L)

/-- 30_encoding.md R67, 20_memory.md R65: a line with any character outside the grammar's own (a lower-case letter, a tab, a carriage
return, a sign, a non-ASCII character) is a comment or INVALID. -/
def Obligations.ForeignCharacterMakesTheLineInvalid : Prop :=
  ∀ (L : Line) (c : Char), c ∈ L → isGrammarChar c = false → decode L = .comment ∨ decode L = .invalid

/-- 30_encoding.md R82 to R85, 10_state.md R23: the packed word and the side field give the record back, and the record the
instruction; the selector and the fields of every instruction's record, and the number of every register. Layout, selectors and
register numbers are the spec's decision D17. -/
def Obligations.PackedWordKeepsTheRecord : Prop :=
  (∀ i : Instr, Decoded.ofWord i.record.word i.record.k = i.record ∧ i.record.instr? = some i ∧
    i.record.word.toNat = i.record.d.toNat * 128 + i.record.s.toNat * 16 + i.record.op.toNat) ∧
  (∀ (k : Nat) (s d : Reg),
    (Instr.mov k d).record = ⟨0x0, 0, d.field, k⟩ ∧
    (Instr.add s d).record = ⟨0x1, s.field, d.field, 0⟩ ∧
    (Instr.sub s d).record = ⟨0x2, s.field, d.field, 0⟩ ∧
    (Instr.copy s d).record = ⟨0x3, s.field, d.field, 0⟩ ∧
    (Instr.and s d).record = ⟨0x4, s.field, d.field, 0⟩ ∧
    (Instr.or s d).record = ⟨0x5, s.field, d.field, 0⟩ ∧
    (Instr.cmp s d).record = ⟨0x6, s.field, d.field, 0⟩ ∧
    (Instr.jeq k).record = ⟨0x7, 0, 0, k⟩ ∧
    (Instr.jneq k).record = ⟨0x8, 0, 0, k⟩ ∧
    (Instr.jmp k).record = ⟨0x9, 0, 0, k⟩ ∧
    Instr.comment.record = ⟨0xE, 0, 0, 0⟩ ∧
    Instr.invalid.record = ⟨0xF, 0, 0, 0⟩) ∧
  (Reg.ax.field = 0 ∧ Reg.bx.field = 1 ∧ Reg.cx.field = 2 ∧ Reg.dx.field = 3 ∧ Reg.ex.field = 4 ∧ Reg.fx.field = 5 ∧
    Reg.gx.field = 6 ∧ Reg.hx.field = 7)

/-- 30_encoding.md R84: the execute stage faults on the selectors 0xA to 0xD, in every state, and the decoder never gives it one: on a
decoded line it does what `exec` does. The selectors are the spec's decision D17. -/
def Obligations.UndefinedSelectorsFaultAndNeverArise : Prop :=
  (∀ (r : Decoded) (s : State), 10 ≤ r.op.toNat → r.op.toNat ≤ 13 → execRecord r s = .fault (.undefinedRecord r.op)) ∧
  (∀ (L : Line) (s : State), execRecord (decode L).record s = exec (decode L) s) ∧
  (∀ L : Line, (decode L).record.op.toNat < 10 ∨ 13 < (decode L).record.op.toNat)

/-- 95_test_vectors.md section 2.2: some lines mean what the spec says. That a table word is read as the packed record of the spec's
decision D17, and that a word of selector 0xA then answers none, is the model's choice (log 6). -/
def Obligations.SpecLinesDecodeAsWritten : Prop :=
  decode "MOV 007, AX".toList = .mov 7 .ax ∧ decode "ADD BX, CX".toList = .add .bx .cx ∧
  decode "OR GX, FX".toList = .or .gx .fx ∧ decode "JMP 0004".toList = .jmp 4 ∧ decode "mov 5, AX".toList = .invalid ∧
  decode "MOV 5,AX".toList = .invalid ∧ decode " # x".toList = .invalid ∧ decode "#".toList = .comment ∧
  decodeTableWord 16 0x2E5 = some (.or .gx .fx) ∧ decodeTableWord 16 0x032 = some (.sub .dx .ax) ∧
  decodeTableWord 16 0x00A = none

/-! ## The loader -/

/-- 20_memory.md R48: the trim removes characters of TRIM_SET from both ends, all of them, and nothing else. -/
def Obligations.TrimRemovesExactlyTheEnds : Prop :=
  ∀ (p : Params) (S : Text), ∃ a b, S = a ++ trimText p S ++ b ∧ (∀ c ∈ a, c ∈ p.trimSet) ∧ (∀ c ∈ b, c ∈ p.trimSet) ∧
    (∀ c, (trimText p S).head? = some c → c ∉ p.trimSet) ∧ (∀ c, (trimText p S).getLast? = some c → c ∉ p.trimSet)

/-- 20_memory.md R50: the lines joined by line feeds are the text again, no line holds a line feed, and m line feeds give m + 1 lines.
The split at U+000A alone is the spec's decision D8. -/
def Obligations.SplitKeepsTheText : Prop :=
  ∀ S : Text, [lineFeed].intercalate (splitLF S) = S ∧ (∀ L ∈ splitLF S, lineFeed ∉ L) ∧
    (splitLF S).length = S.count lineFeed + 1

/-! ## The trace as text -/

/-- 10_state.md R42, 95_test_vectors.md L1.3, L1.4, L1.8, L1.9: some entries as the host reads them. -/
def Obligations.EntriesRenderAsWritten : Prop :=
  render .banner = "Resetting all registers to their defaults...".toList ∧
  render (.move 0 300 .ax) = "Line 1: Moving 300 into AX".toList ∧
  render (.sub 2 .ax .bx) = "Line 3: Subtracting AX to BX".toList ∧
  render (.jeqTaken 3 5) = "Line 4: ZX is 1 so jumping to line 5".toList ∧
  render (.tooMany 0) = "Line 1: Too many commands; exiting.".toList ∧
  transcript [.banner, .jmp 9 10] =
    "Resetting all registers to their defaults...".toList ++ [lineFeed] ++ "Line 10: Jumping to line 10".toList

/-- 10_state.md R42: the decimal spelling of every number is a literal token for it, with no leading zero but for 0 itself. The absence of
leading zeros is the spec's decision D28. -/
def Obligations.DecimalSpellingIsExact : Prop :=
  ∀ n : Nat, isDigits (dec n) = true ∧ val (dec n) = n ∧ ((dec n).head? = some '0' → n = 0 ∧ dec n = ['0'])

/-! ## Bounded realisations -/

/-- 10_state.md R31, 00_scope.md R9 (PC_W): a pc that saturates at any `top` that is at least the program's length behaves as the
integer rule does in every step: a step of the saturated state is the saturated step. So does a pc register of `w` bits that
represents −1 and every value up to the program's length, over one step and over every run that a conforming realisation admits. That
the register is read as two's complement and saturates at its greatest value is the model's choice (log 18). -/
def Obligations.SaturatingPcFollowsTheIntegerRule : Prop :=
  (∀ (p : Params) (top : Int) (s : State), (s.P.length : Int) ≤ top →
    stepSaturating p top (saturatePc top s) = mapNext (saturatePc top) (stepWith p s)) ∧
  (∀ (p : Params) (w : Nat) (s : State), representsPc w s.P.length = true → -1 ≤ s.pc →
    stepBounded p (s.narrow w) = mapNext (State.narrow w) (stepWith p s)) ∧
  (∀ (r : Realisation) (p : Params) (w : Nat) (S : Text) (s t : State), r.conforms = true → r.pcW = some w →
    runBounded r p S s = .next t →
    ∀ k, runStepsBounded p k (t.narrow w) = mapNext (State.narrow w) (runSteps p k t))

/-- 40_sequencer.md R115: the two-update form of a taken jump in a register of w bits gives t − 1 modulo 2^w. -/
def Obligations.TwoUpdateJumpAgrees : Prop :=
  ∀ w k : Nat, twoUpdateTarget w k = BitVec.ofInt w (targetPc k)

/-- 30_encoding.md R86, 00_scope.md R9 (MAX_LINES): a bounded realisation refuses every program with more lines than it holds and every
program with a literal that does not fit its literal field, and gives every other program its own meaning. The refusals are the spec's
decisions D4 and D24; that a program too long is refused under that name whatever its literals is the model's choice (log 12). -/
def Obligations.WideLiteralsAreRefusedNotWrapped : Prop :=
  ∀ (r : Realisation) (p : Params) (S : Text) (s : State), s.rs ≠ .running →
    ((∃ m, r.maxLines = some m ∧ m < (loadProgram p S).length) → runBounded r p S s = .refused .programTooLong) ∧
    ((∀ m, r.maxLines = some m → (loadProgram p S).length ≤ m) →
      (∃ w, r.kW = some w ∧ ∃ L ∈ loadProgram p S, ∃ k, (decode L).literal? = some k ∧ 2 ^ w ≤ k) →
      runBounded r p S s = .refused .literalTooWide) ∧
    ((∀ m, r.maxLines = some m → (loadProgram p S).length ≤ m) →
      (∀ w, r.kW = some w → ∀ L ∈ loadProgram p S, ∀ k, (decode L).literal? = some k → k < 2 ^ w) →
      runBounded r p S s = command p (.run S) s)
end

