-- ==== Sys2Proof/Laws/Decode.lean ====
section
/-! SUPPORT. One lemma per helper of the decoder and the encoder. -/

namespace Sys2Proof

theorem stripPrefix_eq_some_iff (p L rest : Line) : stripPrefix p L = some rest ↔ L = p ++ rest := by
  induction p generalizing L with
  | nil => simp [stripPrefix, eq_comm]
  | cons c p ih =>
    cases L with
    | nil => simp [stripPrefix]
    | cons x L =>
      simp only [stripPrefix, List.cons_append, List.cons.injEq]
      split
      · rename_i h; simp [h, ih]
      · rename_i h; simp [Ne.symm h]

@[simp] theorem stripPrefix_append (p rest : Line) : stripPrefix p (p ++ rest) = some rest :=
  (stripPrefix_eq_some_iff _ _ _).2 rfl

@[simp] theorem regToken_regName (r : Reg) : regToken (regName r) = some r := by cases r <;> rfl

theorem regToken_eq_some_iff (w : Line) (r : Reg) : regToken w = some r ↔ w = regName r := by
  constructor
  · intro h
    match w, h with
    | [a, b], h =>
      simp only [regToken] at h
      split at h
      · rename_i hab
        obtain ⟨rfl, ha⟩ := hab
        have key : a = Char.ofNat ('A'.toNat + (a.toNat - 'A'.toNat)) := by
          rw [show 'A'.toNat + (a.toNat - 'A'.toNat) = a.toNat by omega, Char.ofNat_toNat]
        rw [key]
        generalize a.toNat - 'A'.toNat = n at h
        match n, h with
        | 0, h => cases h; rfl
        | 1, h => cases h; rfl
        | 2, h => cases h; rfl
        | 3, h => cases h; rfl
        | 4, h => cases h; rfl
        | 5, h => cases h; rfl
        | 6, h => cases h; rfl
        | 7, h => cases h; rfl
      · cases h
  · rintro rfl; exact regToken_regName r

@[simp] theorem regName_length (r : Reg) : (regName r).length = 2 := by cases r <;> rfl

theorem digitChar_toNat {n : Nat} (h : n < 10) : (digitChar n).toNat = '0'.toNat + n := by
  interval_cases n <;> rfl

theorem isDigit_digitChar {n : Nat} (h : n < 10) : isDigit (digitChar n) = true := by
  interval_cases n <;> rfl

/-- The number of a digit string with one more digit at its end. -/
theorem val_append_singleton (w : Line) (c : Char) : val (w ++ [c]) = val w * 10 + (c.toNat - '0'.toNat) := by
  induction w with
  | nil => simp [val]
  | cons a w ih => simp only [List.cons_append, val, ih, List.length_append, List.length_singleton, pow_succ]; ring

theorem isDigits_iff (w : Line) : isDigits w = true ↔ w ≠ [] ∧ ∀ c ∈ w, isDigit c = true := by
  simp [isDigits, List.all_eq_true]

/-- A run of digits before a character that is no digit is what `takeWhile` reads, and `dropWhile` leaves the rest. -/
theorem takeWhile_digits {w rest : Line} (hw : ∀ c ∈ w, isDigit c = true) (hr : ∀ c, rest.head? = some c → isDigit c = false) :
    (w ++ rest).takeWhile isDigit = w ∧ (w ++ rest).dropWhile isDigit = rest := by
  induction w with
  | nil =>
    cases rest with
    | nil => simp
    | cons c rest => simp [hr c rfl]
  | cons a w ih =>
    have ha := hw a (by simp)
    have := ih fun c hc => hw c (by simp [hc])
    simp [ha, this.1, this.2]

/-- What the T-IR arm accepts: exactly the lines of format T-IR, with the number of the digits and the register. -/
theorem decodeImmReg_eq_some_iff (L : Line) (i : Instr) :
    decodeImmReg L = some i ↔ ∃ k d, i = .mov k d ∧ formatOf (.mov k d) L := by
  unfold decodeImmReg
  constructor
  · intro h
    obtain ⟨rest, h1, h⟩ := Option.bind_eq_some_iff.1 h
    obtain ⟨r, h2, h⟩ := Option.bind_eq_some_iff.1 h
    split at h
    · rename_i hd
      obtain ⟨d, h3, rfl⟩ := Option.map_eq_some_iff.1 h
      rw [stripPrefix_eq_some_iff] at h1 h2
      rw [regToken_eq_some_iff] at h3
      refine ⟨_, d, rfl, _, hd, rfl, ?_⟩
      rw [h1, ← h3]
      conv_lhs => rw [← List.takeWhile_append_dropWhile (p := isDigit) (l := rest), h2]
      simp
    · cases h
  · rintro ⟨k, d, rfl, w, hw, rfl, rfl⟩
    have ht := takeWhile_digits (rest := ", ".toList ++ regName d) ((isDigits_iff w).1 hw).2
      (by intro c hc; simp at hc; subst hc; rfl)
    rw [List.append_assoc, List.append_assoc, stripPrefix_append]
    simp only [Option.bind_some]
    rw [ht.1, ht.2, stripPrefix_append]
    simp [hw]

/-- What a T-RR arm accepts. -/
theorem decodeRegReg_eq_some_iff (m : String) (op : Reg → Reg → Instr) (L : Line) (i : Instr) :
    decodeRegReg m op L = some i ↔ ∃ s d, i = op s d ∧ formatRegReg m s d L := by
  unfold decodeRegReg formatRegReg
  constructor
  · intro h
    obtain ⟨rest, h1, h⟩ := Option.bind_eq_some_iff.1 h
    obtain ⟨r, h2, h⟩ := Option.bind_eq_some_iff.1 h
    obtain ⟨s, h3, h⟩ := Option.bind_eq_some_iff.1 h
    obtain ⟨d, h4, rfl⟩ := Option.map_eq_some_iff.1 h
    rw [stripPrefix_eq_some_iff] at h1 h2
    rw [regToken_eq_some_iff] at h3 h4
    refine ⟨s, d, rfl, ?_⟩
    rw [h1, ← h4, ← h3]
    conv_lhs => rw [← List.take_append_drop 2 rest, h2]
    simp
  · rintro ⟨s, d, rfl, rfl⟩
    rw [show m.toList ++ " ".toList ++ regName s ++ ", ".toList ++ regName d =
      (m.toList ++ [' ']) ++ (regName s ++ (", ".toList ++ regName d)) by simp, stripPrefix_append]
    simp only [Option.bind_some]
    rw [List.drop_left' (regName_length s), List.take_left' (regName_length s), stripPrefix_append]
    simp

/-- What a T-T arm accepts. -/
theorem decodeTarget_eq_some_iff (m : String) (op : Nat → Instr) (L : Line) (i : Instr) :
    decodeTarget m op L = some i ↔ ∃ k, i = op k ∧ formatTarget m k L := by
  unfold decodeTarget formatTarget
  constructor
  · intro h
    obtain ⟨w, h1, h⟩ := Option.bind_eq_some_iff.1 h
    rw [stripPrefix_eq_some_iff] at h1
    split at h
    · rename_i hw; cases h; exact ⟨_, rfl, w, hw, rfl, by simpa using h1⟩
    · cases h
  · rintro ⟨k, rfl, w, hw, rfl, rfl⟩
    rw [show m.toList ++ " ".toList ++ w = (m.toList ++ [' ']) ++ w by simp, stripPrefix_append]
    simp [hw]

theorem regName_injective {a b : Reg} (h : regName a = regName b) : a = b := by
  have := congrArg regToken h; simpa using this

@[simp] theorem regOfField_field (r : Reg) : Reg.ofField r.field = r := by cases r <;> rfl

end Sys2Proof
end

