-- ==== Sys2Proof/Laws/Loader.lean ====
section
/-! SUPPORT. What RUN does when it is admitted, and the reading of one UTF-8 character. -/

namespace Sys2Proof.Machine

open Sys2Proof

theorem command_run {p : Params} {S : Text} {s : State} (h : s.rs ≠ .running) : command p (.run S) s = .next (startRun p S) := by
  unfold command; rw [if_neg h]

theorem startRun_empty {p : Params} {S : Text} (h : trimText p S = []) :
    startRun p S = State.reset.halt .haltedNormal .normal := by
  unfold startRun; rw [if_pos h]

theorem startRun_lines {p : Params} {S : Text} (h : trimText p S ≠ []) :
    startRun p S = { State.reset with P := splitLF (trimText p S), rs := .running } := by
  unfold startRun loadProgram; rw [if_neg h, if_neg h]

/-- A continuation byte carries six bits. -/
theorem continuation_some {b : Byte} {k : Nat} (h : continuation b = some k) : b.toNat = 0x80 + k ∧ k < 64 := by
  unfold continuation at h; split at h
  · have := Option.some.inj h; omega
  · cases h

/-- A code point is the character's own, and its form was not too long. -/
theorem scalar_some {least n : Nat} {c : Char} (h : scalar least n = some c) : least ≤ n ∧ n = c.toNat := by
  unfold scalar at h; split at h
  · rename_i h1; cases h
    exact ⟨h1.1, by rw [Char.toNat_ofNat, if_pos h1.2]⟩
  · cases h

theorem scalar_of_char (c : Char) {least : Nat} (h : least ≤ c.toNat) : scalar least c.toNat = some c := by
  unfold scalar; rw [if_pos ⟨h, c.valid⟩, Char.ofNat_toNat]

end Sys2Proof.Machine
end

