-- ==== Sys2Proof/Laws/State.lean ====
section
/-! SUPPORT. One lemma per field per update of the state, and the register bank's read after write. -/

namespace Sys2Proof.Machine

open Sys2Proof

@[simp] theorem RegBank.get_set_self (b : RegBank) (r : Reg) (v : Byte) : (b.set r v).get r = v := by cases r <;> rfl

theorem RegBank.get_set_of_ne (b : RegBank) {r q : Reg} (v : Byte) (h : q ≠ r) : (b.set r v).get q = b.get q := by
  cases r <;> cases q <;> first | rfl | exact absurd rfl h

@[simp] theorem RegBank.set_get_self (b : RegBank) (r : Reg) : b.set r (b.get r) = b := by cases r <;> rfl

@[simp] theorem setReg_x (s : State) (r : Reg) (v : Byte) : (s.setReg r v).x = s.x.set r v := rfl
@[simp] theorem setReg_zx (s : State) (r : Reg) (v : Byte) : (s.setReg r v).zx = s.zx := rfl
@[simp] theorem setReg_pc (s : State) (r : Reg) (v : Byte) : (s.setReg r v).pc = s.pc := rfl
@[simp] theorem setReg_cnt (s : State) (r : Reg) (v : Byte) : (s.setReg r v).cnt = s.cnt := rfl
@[simp] theorem setReg_rs (s : State) (r : Reg) (v : Byte) : (s.setReg r v).rs = s.rs := rfl
@[simp] theorem setReg_cause (s : State) (r : Reg) (v : Byte) : (s.setReg r v).cause = s.cause := rfl
@[simp] theorem setReg_P (s : State) (r : Reg) (v : Byte) : (s.setReg r v).P = s.P := rfl
@[simp] theorem setReg_T (s : State) (r : Reg) (v : Byte) : (s.setReg r v).T = s.T := rfl

@[simp] theorem setZx_x (s : State) (v : FlagBit) : (s.setZx v).x = s.x := rfl
@[simp] theorem setZx_zx (s : State) (v : FlagBit) : (s.setZx v).zx = v := rfl
@[simp] theorem setZx_pc (s : State) (v : FlagBit) : (s.setZx v).pc = s.pc := rfl
@[simp] theorem setZx_cnt (s : State) (v : FlagBit) : (s.setZx v).cnt = s.cnt := rfl
@[simp] theorem setZx_rs (s : State) (v : FlagBit) : (s.setZx v).rs = s.rs := rfl
@[simp] theorem setZx_cause (s : State) (v : FlagBit) : (s.setZx v).cause = s.cause := rfl
@[simp] theorem setZx_P (s : State) (v : FlagBit) : (s.setZx v).P = s.P := rfl
@[simp] theorem setZx_T (s : State) (v : FlagBit) : (s.setZx v).T = s.T := rfl

@[simp] theorem setPc_x (s : State) (v : Int) : (s.setPc v).x = s.x := rfl
@[simp] theorem setPc_zx (s : State) (v : Int) : (s.setPc v).zx = s.zx := rfl
@[simp] theorem setPc_pc (s : State) (v : Int) : (s.setPc v).pc = v := rfl
@[simp] theorem setPc_cnt (s : State) (v : Int) : (s.setPc v).cnt = s.cnt := rfl
@[simp] theorem setPc_rs (s : State) (v : Int) : (s.setPc v).rs = s.rs := rfl
@[simp] theorem setPc_cause (s : State) (v : Int) : (s.setPc v).cause = s.cause := rfl
@[simp] theorem setPc_P (s : State) (v : Int) : (s.setPc v).P = s.P := rfl
@[simp] theorem setPc_T (s : State) (v : Int) : (s.setPc v).T = s.T := rfl

@[simp] theorem setCnt_x (s : State) (v : Nat) : (s.setCnt v).x = s.x := rfl
@[simp] theorem setCnt_zx (s : State) (v : Nat) : (s.setCnt v).zx = s.zx := rfl
@[simp] theorem setCnt_pc (s : State) (v : Nat) : (s.setCnt v).pc = s.pc := rfl
@[simp] theorem setCnt_cnt (s : State) (v : Nat) : (s.setCnt v).cnt = v := rfl
@[simp] theorem setCnt_rs (s : State) (v : Nat) : (s.setCnt v).rs = s.rs := rfl
@[simp] theorem setCnt_cause (s : State) (v : Nat) : (s.setCnt v).cause = s.cause := rfl
@[simp] theorem setCnt_P (s : State) (v : Nat) : (s.setCnt v).P = s.P := rfl
@[simp] theorem setCnt_T (s : State) (v : Nat) : (s.setCnt v).T = s.T := rfl

@[simp] theorem emit_x (s : State) (e : Event) : (s.emit e).x = s.x := rfl
@[simp] theorem emit_zx (s : State) (e : Event) : (s.emit e).zx = s.zx := rfl
@[simp] theorem emit_pc (s : State) (e : Event) : (s.emit e).pc = s.pc := rfl
@[simp] theorem emit_cnt (s : State) (e : Event) : (s.emit e).cnt = s.cnt := rfl
@[simp] theorem emit_rs (s : State) (e : Event) : (s.emit e).rs = s.rs := rfl
@[simp] theorem emit_cause (s : State) (e : Event) : (s.emit e).cause = s.cause := rfl
@[simp] theorem emit_P (s : State) (e : Event) : (s.emit e).P = s.P := rfl
@[simp] theorem emit_T (s : State) (e : Event) : (s.emit e).T = s.T ++ [e] := rfl

@[simp] theorem halt_x (s : State) (r : RunState) (c : HaltCause) : (s.halt r c).x = s.x := rfl
@[simp] theorem halt_zx (s : State) (r : RunState) (c : HaltCause) : (s.halt r c).zx = s.zx := rfl
@[simp] theorem halt_pc (s : State) (r : RunState) (c : HaltCause) : (s.halt r c).pc = s.pc := rfl
@[simp] theorem halt_cnt (s : State) (r : RunState) (c : HaltCause) : (s.halt r c).cnt = s.cnt := rfl
@[simp] theorem halt_rs (s : State) (r : RunState) (c : HaltCause) : (s.halt r c).rs = r := rfl
@[simp] theorem halt_cause (s : State) (r : RunState) (c : HaltCause) : (s.halt r c).cause = c := rfl
@[simp] theorem halt_P (s : State) (r : RunState) (c : HaltCause) : (s.halt r c).P = s.P := rfl
@[simp] theorem halt_T (s : State) (r : RunState) (c : HaltCause) : (s.halt r c).T = s.T := rfl

@[simp] theorem lineIndex_emit (s : State) (e : Event) : lineIndex (s.emit e) = lineIndex s := rfl
@[simp] theorem lineIndex_setZx (s : State) (v : FlagBit) : lineIndex (s.setZx v) = lineIndex s := rfl
@[simp] theorem nextPc_emit (s : State) (e : Event) : nextPc (s.emit e) = nextPc s := rfl
@[simp] theorem nextPc_setZx (s : State) (v : FlagBit) : nextPc (s.setZx v) = nextPc s := rfl

@[simp] theorem reset_x_get (r : Reg) : State.reset.x.get r = 0 := by cases r <;> rfl
@[simp] theorem reset_zx : State.reset.zx = 0 := rfl
@[simp] theorem reset_pc : State.reset.pc = 0 := rfl
@[simp] theorem reset_cnt : State.reset.cnt = 0 := rfl
@[simp] theorem reset_rs : State.reset.rs = .idle := rfl
@[simp] theorem reset_cause : State.reset.cause = .none := rfl
@[simp] theorem reset_P : State.reset.P = [] := rfl
@[simp] theorem reset_T : State.reset.T = [.banner] := rfl

end Sys2Proof.Machine
end

