-- ==== Sys2Proof/Laws/Ops.lean ====
section
/-! SUPPORT. For each shared operation one lemma that says all it can do: the clamp, the write-back, the common end of the register
operations, the jumps, the fetch, the count and budget test, and one step. -/

namespace Sys2Proof.Machine

open Sys2Proof

/-! ## Clamp and write-back -/

theorem clamp_range (v : Int) : 0 ≤ clamp v ∧ clamp v ≤ 255 := by
  unfold clamp; split <;> [skip; split] <;> omega

theorem clamp_of_range {v : Int} (h0 : 0 ≤ v) (h1 : v ≤ 255) : clamp v = v := by
  unfold clamp; split <;> [skip; split] <;> omega

theorem clampByte_toInt (v : Int) : ((clampByte v).toNat : Int) = clamp v := by
  have := clamp_range v
  unfold clampByte
  rw [BitVec.toNat_ofInt]
  omega

/-- A value that a register holds passes the clamp unchanged. -/
@[simp] theorem clampByte_of_byte (b : Byte) : clampByte (b.toNat : Int) = b := by
  have hb := b.isLt
  have h := clampByte_toInt (b.toNat : Int)
  rw [clamp_of_range (by omega) (by omega)] at h
  exact BitVec.eq_of_toNat_eq (by omega)

@[simp] theorem clampWarning_of_byte (i : Nat) (d : Reg) (b : Byte) : clampWarning i d (b.toNat : Int) = none := by
  have := b.isLt
  unfold clampWarning
  rw [if_neg (by omega), if_neg (by omega)]

/-- Everything `writeBack` does: the register, and the warning of its raw value at the end of the trace. -/
theorem writeBack_eq (d : Reg) (raw : Int) (i : Nat) (s : State) :
    writeBack d raw i s =
      { s with x := s.x.set d (clampByte raw), T := s.T ++ (clampWarning i d raw).toList } := by
  unfold writeBack
  cases clampWarning i d raw <;> simp [State.setReg, State.emit]

theorem clampWarning_isWarning {i : Nat} {d : Reg} {raw : Int} {e : Event} (h : e ∈ (clampWarning i d raw).toList) :
    isWarning e = true ∧ isErrorEvent e = false ∧ eventLine? e = some i := by
  unfold clampWarning at h
  split at h
  · simp at h; subst h; exact ⟨rfl, rfl, rfl⟩
  · split at h <;> simp at h
    subst h; exact ⟨rfl, rfl, rfl⟩

/-- Everything the common end of a register operation does. -/
theorem mutate_eq (e : Event) (d : Reg) (raw : Int) (s : State) :
    mutate e d raw s =
      { s with
        x := s.x.set d (clampByte raw), pc := s.pc + 1, T := s.T ++ e :: (clampWarning (lineIndex s) d raw).toList } := by
  simp [mutate, writeBack_eq, State.emit, State.setPc, nextPc]

/-! ## Jumps, comment and invalid lines -/

theorem takeJump_eq (e : Event) (t : Nat) (s : State) :
    takeJump e t s = { s with pc := targetPc t, T := s.T ++ [e] } := rfl

theorem fallThrough_eq (s : State) : fallThrough s = { s with pc := s.pc + 1 } := rfl

/-! ## What an instruction can do -/

/-- Everything `exec` of a decoded line can do when it answers a next state: counter and store are kept; the trace grows by events of
this line, none an error but INVALID's; the pc goes to i + 1, to t − 1 of a jump's target, or stays for INVALID; and INVALID alone
touches the run state and the cause. -/
structure ExecSpec (i : Instr) (s t : State) : Prop where
  cnt : t.cnt = s.cnt
  store : t.P = s.P
  trace : ∃ es, t.T = s.T ++ es ∧ (∀ e ∈ es, eventLine? e = some (lineIndex s)) ∧
    (i ≠ .invalid → ∀ e ∈ es, isErrorEvent e = false)
  control :
    i = .invalid ∧ t = s.parseFailure (lineIndex s) ∨
    i ≠ .invalid ∧ t.rs = s.rs ∧ t.cause = s.cause ∧ (t.pc = s.pc + 1 ∨ ∃ k : Nat, t.pc = targetPc k)

theorem execSpec_mutate {i : Instr} {s s' t : State} {e : Event} {d : Reg} {raw : Int} (hi : i ≠ .invalid)
    (hs : { s' with zx := s.zx } = s) (he : eventLine? e = some (lineIndex s)) (he' : isErrorEvent e = false)
    (ht : mutate e d raw s' = t) : ExecSpec i s t := by
  have hcnt := congrArg State.cnt hs
  have hP := congrArg State.P hs
  have hT := congrArg State.T hs
  have hpc := congrArg State.pc hs
  have hrs := congrArg State.rs hs
  have hcause := congrArg State.cause hs
  simp only at hcnt hP hT hpc hrs hcause
  have hline : lineIndex s' = lineIndex s := by simp [lineIndex, hpc]
  rw [mutate_eq] at ht
  subst ht
  refine ⟨hcnt, hP, ⟨e :: (clampWarning (lineIndex s') d raw).toList, by simp only [hT], ?_, ?_⟩, .inr ⟨hi, hrs, hcause, .inl (by simp [hpc])⟩⟩
  · intro e' he''
    rcases List.mem_cons.1 he'' with rfl | hw
    · exact he
    · exact hline ▸ (clampWarning_isWarning hw).2.2
  · intro _ e' he''
    rcases List.mem_cons.1 he'' with rfl | hw
    · exact he'
    · exact (clampWarning_isWarning hw).2.1

theorem execSpec_takeJump {i : Instr} {s t : State} {e : Event} {k : Nat} (hi : i ≠ .invalid)
    (he : eventLine? e = some (lineIndex s)) (he' : isErrorEvent e = false) (ht : takeJump e k s = t) : ExecSpec i s t := by
  rw [takeJump_eq] at ht
  subst ht
  exact ⟨rfl, rfl, ⟨[e], rfl, by simpa using he, by simpa using fun _ => he'⟩, .inr ⟨hi, rfl, rfl, .inr ⟨k, rfl⟩⟩⟩

theorem execSpec_fallThrough {i : Instr} {s t : State} (hi : i ≠ .invalid) (ht : fallThrough s = t) : ExecSpec i s t := by
  rw [fallThrough_eq] at ht
  subst ht
  exact ⟨rfl, rfl, ⟨[], by simp, by simp, by simp⟩, .inr ⟨hi, rfl, rfl, .inl rfl⟩⟩

/-- The inversion of `exec`. -/
theorem exec_cases {i : Instr} {s t : State} (h : exec i s = .next t) : ExecSpec i s t := by
  cases i with
  | mov k d => exact execSpec_mutate (s' := s) (by simp) rfl rfl rfl (Host.Outcome.next.inj h)
  | add src d => exact execSpec_mutate (s' := s) (by simp) rfl rfl rfl (Host.Outcome.next.inj h)
  | sub src d => exact execSpec_mutate (s' := s) (by simp) rfl rfl rfl (Host.Outcome.next.inj h)
  | copy src d => exact execSpec_mutate (s' := s) (by simp) rfl rfl rfl (Host.Outcome.next.inj h)
  | and src d => exact execSpec_mutate (s' := s) (by simp) rfl rfl rfl (Host.Outcome.next.inj h)
  | or src d => exact execSpec_mutate (s' := s) (by simp) rfl rfl rfl (Host.Outcome.next.inj h)
  | cmp src d => exact execSpec_mutate (s' := s.setZx (equalFlag (readReg s src) (readReg s d))) (by simp) rfl rfl rfl (Host.Outcome.next.inj h)
  | jeq k =>
    have h := Host.Outcome.next.inj h
    split at h
    · exact execSpec_takeJump (by simp) rfl rfl h
    · exact execSpec_fallThrough (by simp) h
  | jneq k =>
    have h := Host.Outcome.next.inj h
    split at h
    · exact execSpec_takeJump (by simp) rfl rfl h
    · exact execSpec_fallThrough (by simp) h
  | jmp k => exact execSpec_takeJump (by simp) rfl rfl (Host.Outcome.next.inj h)
  | comment => exact execSpec_fallThrough (by simp) (Host.Outcome.next.inj h)
  | invalid =>
    have h := Host.Outcome.next.inj h
    subst h
    exact ⟨rfl, rfl, ⟨[_], rfl, by simp [eventLine?], by simp⟩, .inl ⟨rfl, rfl⟩⟩

/-! ## Outcomes -/

@[simp] theorem mapNext_next {α β : Type} (f : α → β) (t : α) : mapNext f (.next t) = .next (f t) := rfl

theorem mapNext_mapNext {α β γ : Type} (g : β → γ) (f : α → β) (o : Host.Outcome α Fault Refusal) :
    mapNext g (mapNext f o) = mapNext (fun a => g (f a)) o := by
  cases o <;> rfl

theorem mapNext_eq_next {α β : Type} {f : α → β} {o : Host.Outcome α Fault Refusal} {t : β} (h : mapNext f o = .next t) :
    ∃ u, o = .next u ∧ t = f u := by
  cases o with
  | next u => exact ⟨u, rfl, by simpa [mapNext] using h.symm⟩
  | fault r => simp [mapNext] at h
  | refused r => simp [mapNext] at h

/-! ## Fetch -/

theorem fetch_cases (s : State) :
    fetch s = .pastEnd ∧ (s.P.length : Int) ≤ s.pc ∨
    fetch s = .beforeStart ∧ s.pc < 0 ∨
    ∃ L, fetch s = .line L ∧ 0 ≤ s.pc ∧ s.pc < s.P.length ∧ s.P[s.pc.toNat]? = some L := by
  unfold fetch
  by_cases h1 : s.pc ≥ s.P.length
  · exact .inl ⟨if_pos h1, h1⟩
  · by_cases h2 : s.pc < 0
    · exact .inr (.inl ⟨by rw [if_neg h1, if_pos h2], h2⟩)
    · have hlt : s.pc.toNat < s.P.length := by omega
      refine .inr (.inr ⟨s.P[s.pc.toNat], ?_, by omega, by omega, by simp [hlt]⟩)
      rw [if_neg h1, if_neg h2, lineIndex, List.getD_eq_getElem _ _ hlt]

theorem fetch_line {s : State} {L : Line} (h0 : 0 ≤ s.pc) (h : s.P[s.pc.toNat]? = some L) : fetch s = .line L := by
  have hlt : s.pc.toNat < s.P.length := (List.getElem?_eq_some_iff.1 h).1
  rcases fetch_cases s with ⟨-, h1⟩ | ⟨-, h1⟩ | ⟨K, hK, -, -, hK'⟩
  · omega
  · omega
  · rw [h] at hK'
    rw [hK, Option.some.inj hK']

theorem line_of_fetch {s : State} {L : Line} (h : fetch s = .line L) :
    0 ≤ s.pc ∧ s.pc < s.P.length ∧ s.P[s.pc.toNat]? = some L := by
  rcases fetch_cases s with ⟨h1, -⟩ | ⟨h1, -⟩ | ⟨K, hK, h0, h1, h2⟩
  · rw [h] at h1; cases h1
  · rw [h] at h1; cases h1
  · rw [h] at hK; cases hK; exact ⟨h0, h1, h2⟩

theorem fetch_pastEnd {s : State} (h : (s.P.length : Int) ≤ s.pc) : fetch s = .pastEnd := by
  unfold fetch; exact if_pos h

theorem fetch_beforeStart {s : State} (h : s.pc < 0) : fetch s = .beforeStart := by
  unfold fetch; rw [if_neg (by omega), if_pos h]

/-! ## Count and budget test -/

theorem countInstruction_cases (p : Params) (i : Nat) (s : State) :
    s.cnt + 1 < p.budget ∧ s.countInstruction p i = s.setCnt (s.cnt + 1) ∨
    p.budget ≤ s.cnt + 1 ∧ s.countInstruction p i = (s.setCnt (s.cnt + 1)).budgetExceeded i := by
  unfold State.countInstruction
  by_cases h : p.budget ≤ s.cnt + 1
  · exact .inr ⟨h, by simp [h]⟩
  · exact .inl ⟨by omega, by simp [h]⟩

@[simp] theorem retire_x (p : Params) (i : Instr) (l : Nat) (t : State) : (retire p i l t).x = t.x := by
  unfold retire; split
  · rcases countInstruction_cases p l t with ⟨-, e⟩ | ⟨-, e⟩ <;> rw [e] <;> rfl
  · rfl

@[simp] theorem retire_zx (p : Params) (i : Instr) (l : Nat) (t : State) : (retire p i l t).zx = t.zx := by
  unfold retire; split
  · rcases countInstruction_cases p l t with ⟨-, e⟩ | ⟨-, e⟩ <;> rw [e] <;> rfl
  · rfl

@[simp] theorem retire_pc (p : Params) (i : Instr) (l : Nat) (t : State) : (retire p i l t).pc = t.pc := by
  unfold retire; split
  · rcases countInstruction_cases p l t with ⟨-, e⟩ | ⟨-, e⟩ <;> rw [e] <;> rfl
  · rfl

@[simp] theorem retire_P (p : Params) (i : Instr) (l : Nat) (t : State) : (retire p i l t).P = t.P := by
  unfold retire; split
  · rcases countInstruction_cases p l t with ⟨-, e⟩ | ⟨-, e⟩ <;> rw [e] <;> rfl
  · rfl

theorem retire_cnt (p : Params) (i : Instr) (l : Nat) (t : State) :
    (retire p i l t).cnt = t.cnt + if counts i = true then 1 else 0 := by
  unfold retire; split
  · rcases countInstruction_cases p l t with ⟨-, e⟩ | ⟨-, e⟩ <;> rw [e] <;> rfl
  · rfl

theorem retire_rs (p : Params) (i : Instr) (l : Nat) (t : State) :
    (retire p i l t).rs = if counts i = true ∧ p.budget ≤ t.cnt + 1 then .haltedError else t.rs := by
  unfold retire; split
  · rename_i h
    rcases countInstruction_cases p l t with ⟨h1, e⟩ | ⟨h1, e⟩ <;> rw [e]
    · rw [if_neg (by omega)]; rfl
    · rw [if_pos ⟨h, h1⟩]; rfl
  · rename_i h; rw [if_neg (fun hc => h hc.1)]

theorem retire_T (p : Params) (i : Instr) (l : Nat) (t : State) :
    (retire p i l t).T = t.T ++ if counts i = true ∧ p.budget ≤ t.cnt + 1 then [.tooMany l] else [] := by
  unfold retire; split
  · rename_i h
    rcases countInstruction_cases p l t with ⟨h1, e⟩ | ⟨h1, e⟩ <;> rw [e]
    · rw [if_neg (by omega)]; simp
    · rw [if_pos ⟨h, h1⟩]; rfl
  · rename_i h; rw [if_neg (fun hc => h hc.1)]; simp

theorem counts_iff (i : Instr) : counts i = true ↔ i ≠ .comment ∧ i ≠ .invalid := by
  cases i <;> simp [counts]

/-! ## One step -/

theorem stepWith_not_running {p : Params} {s : State} (h : s.rs ≠ .running) : stepWith p s = .next s := by
  unfold stepWith; exact if_neg h

theorem stepWith_line {p : Params} {s : State} {L : Line} (hr : s.rs = .running) (h : fetch s = .line L) :
    stepWith p s = runDecoded p (decode L) s := by
  unfold stepWith; rw [if_pos hr, h]

theorem stepWith_pastEnd {p : Params} {s : State} (hr : s.rs = .running) (h : fetch s = .pastEnd) :
    stepWith p s = .next s.loopExit := by
  unfold stepWith; rw [if_pos hr, h]

theorem stepWith_beforeStart {p : Params} {s : State} (hr : s.rs = .running) (h : fetch s = .beforeStart) :
    stepWith p s = .next s.fetchFault := by
  unfold stepWith; rw [if_pos hr, h]

/-- The inversion of one step: the block waits, leaves the loop, faults on the fetch, or runs the decoded line and retires it. -/
theorem stepWith_cases {p : Params} {s t : State} (h : stepWith p s = .next t) :
    s.rs ≠ .running ∧ t = s ∨
    s.rs = .running ∧ (s.P.length : Int) ≤ s.pc ∧ t = s.loopExit ∨
    s.rs = .running ∧ s.pc < 0 ∧ t = s.fetchFault ∨
    ∃ L u, s.rs = .running ∧ fetch s = .line L ∧ 0 ≤ s.pc ∧ s.pc < s.P.length ∧ exec (decode L) s = .next u ∧
      t = retire p (decode L) (lineIndex s) u := by
  by_cases hr : s.rs = .running
  · rcases fetch_cases s with ⟨hf, h1⟩ | ⟨hf, h1⟩ | ⟨L, hf, h0, h1, -⟩
    · rw [stepWith_pastEnd hr hf] at h
      exact .inr (.inl ⟨hr, h1, by simpa using h.symm⟩)
    · rw [stepWith_beforeStart hr hf] at h
      exact .inr (.inr (.inl ⟨hr, h1, by simpa using h.symm⟩))
    · rw [stepWith_line hr hf] at h
      obtain ⟨u, hu, ht⟩ := mapNext_eq_next h
      exact .inr (.inr (.inr ⟨L, u, hr, hf, h0, h1, hu, ht⟩))
  · rw [stepWith_not_running hr] at h
    exact .inl ⟨hr, by simpa using h.symm⟩

/-! ## Runs of steps -/

theorem runSteps_zero (p : Params) (s : State) : runSteps p 0 s = .next s := rfl

theorem runSteps_not_running {p : Params} {s : State} (h : s.rs ≠ .running) (k : Nat) : runSteps p k s = .next s := by
  cases k with
  | zero => rfl
  | succ k => simp only [runSteps]; exact if_neg h

theorem runSteps_succ {p : Params} {s t : State} (hr : s.rs = .running) (h : stepWith p s = .next t) (k : Nat) :
    runSteps p (k + 1) s = runSteps p k t := by
  simp only [runSteps, if_pos hr, h]

end Sys2Proof.Machine
end

