-- ==== Sys2Proof/Laws/PerInstr.lean ====
section
/-! SUPPORT. The statements about every instruction as syntax, one lemma per constructor. -/

namespace Sys2Proof.Laws

open Sys2Proof

/-! ## The decoded record of every instruction is one the decoder can make (30_encoding.md R82 to R85) -/

/-- The record of the instruction is well formed, and its selector is one of 30_encoding.md R83. -/
def RecordIsProper.Statement (i : Instr) : Prop :=
  i.record.wellFormed = true ∧ (i.record.op.toNat < 10 ∨ 13 < i.record.op.toNat)

theorem RecordIsProper.mov (k : Nat) (d : Reg) : RecordIsProper.Statement (.mov k d) := ⟨rfl, by simp [Instr.record]⟩
theorem RecordIsProper.add (s d : Reg) : RecordIsProper.Statement (.add s d) := ⟨rfl, by simp [Instr.record]⟩
theorem RecordIsProper.sub (s d : Reg) : RecordIsProper.Statement (.sub s d) := ⟨rfl, by simp [Instr.record]⟩
theorem RecordIsProper.copy (s d : Reg) : RecordIsProper.Statement (.copy s d) := ⟨rfl, by simp [Instr.record]⟩
theorem RecordIsProper.and (s d : Reg) : RecordIsProper.Statement (.and s d) := ⟨rfl, by simp [Instr.record]⟩
theorem RecordIsProper.or (s d : Reg) : RecordIsProper.Statement (.or s d) := ⟨rfl, by simp [Instr.record]⟩
theorem RecordIsProper.cmp (s d : Reg) : RecordIsProper.Statement (.cmp s d) := ⟨rfl, by simp [Instr.record]⟩
theorem RecordIsProper.jeq (t : Nat) : RecordIsProper.Statement (.jeq t) := ⟨rfl, by simp [Instr.record]⟩
theorem RecordIsProper.jneq (t : Nat) : RecordIsProper.Statement (.jneq t) := ⟨rfl, by simp [Instr.record]⟩
theorem RecordIsProper.jmp (t : Nat) : RecordIsProper.Statement (.jmp t) := ⟨rfl, by simp [Instr.record]⟩
theorem RecordIsProper.comment : RecordIsProper.Statement .comment := ⟨rfl, by simp [Instr.record]⟩
theorem RecordIsProper.invalid : RecordIsProper.Statement .invalid := ⟨rfl, by simp [Instr.record]⟩

end Sys2Proof.Laws
end

