-- ==== Sys2Proof/Laws/Realisation.lean ====
section
/-! SUPPORT. The fields of a realisation's state and of the state it stands for, and what its pc register keeps of the machine's pc. -/

namespace Sys2Proof.Machine

open Sys2Proof

@[simp] theorem narrow_x (w : Nat) (s : State) : (s.narrow w).x = s.x := rfl
@[simp] theorem narrow_zx (w : Nat) (s : State) : (s.narrow w).zx = s.zx := rfl
@[simp] theorem narrow_cnt (w : Nat) (s : State) : (s.narrow w).cnt = s.cnt := rfl
@[simp] theorem narrow_rs (w : Nat) (s : State) : (s.narrow w).rs = s.rs := rfl
@[simp] theorem narrow_cause (w : Nat) (s : State) : (s.narrow w).cause = s.cause := rfl
@[simp] theorem narrow_P (w : Nat) (s : State) : (s.narrow w).P = s.P := rfl
@[simp] theorem narrow_T (w : Nat) (s : State) : (s.narrow w).T = s.T := rfl
@[simp] theorem widen_pc {w : Nat} (b : BoundedState w) : b.widen.pc = b.pc.toInt := rfl
@[simp] theorem widen_rs {w : Nat} (b : BoundedState w) : b.widen.rs = b.rs := rfl
@[simp] theorem widen_P {w : Nat} (b : BoundedState w) : b.widen.P = b.P := rfl

theorem saturatePc_pc (top : Int) (s : State) : (saturatePc top s).pc = min s.pc top := by
  show (if top < s.pc then top else s.pc) = _
  omega

/-- The register keeps −1 and every value up to its greatest one, and the greatest one of what lies beyond. -/
theorem narrow_pc_toInt {w : Nat} {s : State} (hw : 1 ≤ w) (h : -1 ≤ s.pc) : (s.narrow w).pc.toInt = min s.pc (pcTop w) := by
  show (BitVec.ofInt w (saturatePc (pcTop w) s).pc).toInt = _
  have hp : (0 : Int) < 2 ^ (w - 1) := Int.pow_pos (by decide)
  have hd : (2 : Int) ^ w = 2 * 2 ^ (w - 1) := by
    obtain ⟨v, rfl⟩ : ∃ v, w = v + 1 := ⟨w - 1, by omega⟩
    rw [Int.pow_succ, Nat.add_sub_cancel, Int.mul_comm]
  have hc : ((2 ^ w : Nat) : Int) = 2 ^ w := by push_cast; rfl
  rw [saturatePc_pc, BitVec.toInt_ofInt]
  apply Int.bmod_eq_of_le <;> rw [hc, hd] <;> simp only [pcTop] <;> omega

/-- What the realisation holds stands for the machine's state with its pc saturated. -/
theorem widen_narrow {w : Nat} {s : State} (hw : 1 ≤ w) (h : -1 ≤ s.pc) : (s.narrow w).widen = saturatePc (pcTop w) s := by
  have hpc : (s.narrow w).pc.toInt = (saturatePc (pcTop w) s).pc := by rw [narrow_pc_toInt hw h, saturatePc_pc]
  show ({ s with pc := (s.narrow w).pc.toInt } : State) = _
  rw [hpc]; rfl

end Sys2Proof.Machine
end

