-- ==== Sys2Proof/Laws/Store.lean ====
section
/-! SUPPORT. Every operation that makes or changes a program store keeps its form: no line holds a line feed (20_memory.md R47). -/

namespace Sys2Proof.Machine

open Sys2Proof

theorem lineWf_iff (L : Line) : lineWf L = true ↔ lineFeed ∉ L := by
  simp [lineWf, List.all_eq_true, bne_iff_ne]
  constructor
  · intro h hm; exact h _ hm rfl
  · intro h c hc e; exact h (e ▸ hc)

theorem storeWf_iff (P : List Line) : storeWf P = true ↔ ∀ L ∈ P, lineFeed ∉ L := by
  simp [storeWf, List.all_eq_true, lineWf_iff]

theorem splitLF_ne_nil (S : Text) : splitLF S ≠ [] := by
  cases S with
  | nil => simp [splitLF]
  | cons c S =>
    simp only [splitLF]
    split
    · simp
    · split <;> simp

theorem storeWf_splitLF (S : Text) : storeWf (splitLF S) = true := by
  rw [storeWf_iff]
  induction S with
  | nil => simp [splitLF]
  | cons c S ih =>
    simp only [splitLF]
    split
    · simpa using ih
    · rename_i hc
      cases hS : splitLF S with
      | nil => exact absurd hS (splitLF_ne_nil S)
      | cons L P =>
        rw [hS] at ih
        simp only [List.mem_cons, forall_eq_or_imp] at ih ⊢
        exact ⟨by simpa using ⟨fun e => hc e.symm, ih.1⟩, ih.2⟩

/-- What RUN loads is a proper store. -/
theorem storeWf_loadProgram (p : Params) (S : Text) : storeWf (loadProgram p S) = true := by
  unfold loadProgram
  split
  · rfl
  · exact storeWf_splitLF _

theorem storeWf_startRun (p : Params) (S : Text) : storeWf (startRun p S).P = true := by
  unfold startRun
  split
  · rfl
  · exact storeWf_loadProgram p S

theorem storeWf_reset : storeWf State.reset.P = true := rfl

theorem storeWf_placeLine {L : Line} {P : List Line} (hL : lineWf L = true) (hP : storeWf P = true) (i : Nat) :
    storeWf (placeLine L i P) = true := by
  induction i generalizing P with
  | zero => cases P <;> simp_all [placeLine, storeWf]
  | succ i ih =>
    cases P with
    | nil => simpa [placeLine, storeWf, lineWf] using ih (P := []) rfl
    | cons K P =>
      simp only [placeLine, storeWf, List.all_cons, Bool.and_eq_true] at hP ⊢
      exact ⟨hP.1, ih hP.2⟩

/-- The placed line is what the next step fetches. -/
theorem placeLine_get (L : Line) (i : Nat) (P : List Line) : (placeLine L i P)[i]? = some L := by
  induction i generalizing P with
  | zero => cases P <;> rfl
  | succ i ih => cases P <;> simpa [placeLine] using ih _

end Sys2Proof.Machine
end

