-- ==== Sys2Proof/Tests/Slice0.lean ====
section
/-! SUPPORT. The model's own tests. Expected values come from spec/95_test_vectors.md (the vector's number stands beside each) or from
the rules by hand. -/

namespace Sys2Proof.Tests

open Sys2Proof Sys2Proof.Machine

/-- A RUNNING state at line `i` of a program, with AX, BX and ZX as given and everything else as after a reset. -/
def at_ (P : List String) (i : Int) (a b : Byte) (z : FlagBit) : State :=
  { State.reset with x := { State.reset.x with ax := a, bx := b }, zx := z, pc := i, P := P.map String.toList, rs := .running }

/-- The default parameters with another budget. -/
def budget (b : Nat) (h : 1 ≤ b) : Params := { Params.default with budget := b, budget_pos := h }

/-- What a test looks at after one step: AX, BX, ZX, pc, cnt and the events the step added. -/
structure Seen where
  ax : Nat
  bx : Nat
  zx : Nat
  pc : Int
  cnt : Nat
  events : List Event
deriving DecidableEq, Repr

def seen (o : Host.Outcome State Fault Refusal) : Option Seen :=
  (nextState? o).map fun t => ⟨t.x.ax.toNat, t.x.bx.toNat, t.zx.toNat, t.pc, t.cnt, t.T.tail⟩

/-- The run state and the cause after one step. -/
def ended (o : Host.Outcome State Fault Refusal) : Option (RunState × HaltCause) := (nextState? o).map fun t => (t.rs, t.cause)

/-! ## WellFormed refuses what it should -/

theorem test_lineWf_refuses_line_feed : lineWf ['M', '\n'] = false := by decide
theorem test_storeWf_refuses_line_feed : storeWf [[], ['\n']] = false := by decide
theorem test_record_refuses_selector_A : (Decoded.mk 0xA 0 0 0).wellFormed = false := by decide
theorem test_record_refuses_mov_with_source : (Decoded.mk 0x0 1 0 5).wellFormed = false := by decide
theorem test_record_refuses_add_with_literal : (Decoded.mk 0x1 1 0 5).wellFormed = false := by decide
theorem test_record_refuses_jmp_with_register : (Decoded.mk 0x9 0 1 5).wellFormed = false := by decide
theorem test_record_refuses_comment_with_literal : (Decoded.mk 0xE 0 0 1).wellFormed = false := by decide
theorem test_literal_256_does_not_fit_8_bits : (Instr.mov 256 .ax).wellFormed (some 8) = false := by decide
theorem test_literal_255_fits_8_bits : (Instr.jmp 255).wellFormed (some 8) = true := by decide

/-! ## Decoding: each constructor's line (95_test_vectors.md 2.2) and its packed word, written out as ddd sss oooo -/

theorem test_decode_mov : decode "MOV 256, HX".toList = .mov 256 .hx := by decide
theorem test_decode_add : decode "ADD BX, CX".toList = .add .bx .cx := by decide
theorem test_decode_sub : decode "SUB DX, AX".toList = .sub .dx .ax := by decide
theorem test_decode_copy : decode "COPY HX, AX".toList = .copy .hx .ax := by decide
theorem test_decode_and : decode "AND BX, CX".toList = .and .bx .cx := by decide
theorem test_decode_or : decode "OR GX, FX".toList = .or .gx .fx := by decide
theorem test_decode_cmp : decode "CMP HX, HX".toList = .cmp .hx .hx := by decide
theorem test_decode_jeq : decode "JEQ 5".toList = .jeq 5 := by decide
theorem test_decode_jneq : decode "JNEQ 3".toList = .jneq 3 := by decide
theorem test_decode_jmp : decode "JMP 0004".toList = .jmp 4 := by decide
theorem test_decode_comment : decode "# multiply AX by BX into CX".toList = .comment := by decide
theorem test_decode_empty_line : decode [] = .invalid := by decide

theorem test_word_mov : decodeTableWord 16 0b1110000000 = some (.mov 0 .hx) := by decide
theorem test_word_add : decodeTableWord 16 0b0100010001 = some (.add .bx .cx) := by decide
theorem test_word_sub : decodeTableWord 16 0b0000110010 = some (.sub .dx .ax) := by decide
theorem test_word_copy : decodeTableWord 16 0b0001110011 = some (.copy .hx .ax) := by decide
theorem test_word_and : decodeTableWord 16 0b0100010100 = some (.and .bx .cx) := by decide
theorem test_word_or : decodeTableWord 16 0b1011100101 = some (.or .gx .fx) := by decide
theorem test_word_cmp : decodeTableWord 16 0b1111110110 = some (.cmp .hx .hx) := by decide
theorem test_word_jeq : decodeTableWord 16 0b0000000111 = some (.jeq 0) := by decide
theorem test_word_jneq : decodeTableWord 16 0b0000001000 = some (.jneq 0) := by decide
theorem test_word_jmp : decodeTableWord 16 0b0000001001 = some (.jmp 0) := by decide
theorem test_word_comment : decodeTableWord 16 0b0000001110 = some .comment := by decide
theorem test_word_invalid : decodeTableWord 16 0b0000001111 = some .invalid := by decide
theorem test_word_unused_selector : decodeTableWord 16 0b0000001011 = none := by decide

/-- The INVALID lines of 95_test_vectors.md 2.2. -/
theorem test_decode_refuses_the_spec_list :
    (["mov 5, AX", "MOV 5, ax", "FOO 1,AX", "MOV 5,AX", "MOV  5, AX", " MOV 5, AX", "MOV 5, AX ", "MOV -1, AX", "JMP 0x10",
      "MOV 5, ZX", "MOV 5, AXX", "ADD AX", "JMP 1, 2", "JMP ", "ADD 5, AX", "MOV AX, BX", "MOV 5, AX # c"].all
      fun L => decode L.toList == .invalid) = true := by decide

/-! ## One step of each instruction (95_test_vectors.md 2.3 to 2.11) -/

theorem test_mov_clamps : seen (step (at_ ["MOV 300, AX"] 0 9 0 1)) =
    some ⟨255, 0, 1, 1, 1, [.move 0 300 .ax, .clampHigh 0 .ax]⟩ := by decide
theorem test_add_clamps : seen (step (at_ ["ADD AX, BX"] 0 200 100 0)) =
    some ⟨200, 255, 0, 1, 1, [.add 0 .ax .bx, .clampHigh 0 .bx]⟩ := by decide
theorem test_add_to_itself : seen (step (at_ ["ADD AX, AX"] 0 127 0 0)) = some ⟨254, 0, 0, 1, 1, [.add 0 .ax .ax]⟩ := by decide
theorem test_sub_clamps : seen (step (at_ ["SUB AX, BX"] 0 5 3 0)) =
    some ⟨5, 0, 0, 1, 1, [.sub 0 .ax .bx, .clampLow 0 .bx]⟩ := by decide
theorem test_sub_direction : seen (step (at_ ["SUB AX, BX"] 0 3 5 0)) = some ⟨3, 2, 0, 1, 1, [.sub 0 .ax .bx]⟩ := by decide
theorem test_copy : seen (step (at_ ["COPY AX, BX"] 0 9 7 0)) = some ⟨9, 9, 0, 1, 1, [.copy 0 .ax .bx]⟩ := by decide
theorem test_and : seen (step (at_ ["AND AX, BX"] 0 12 10 1)) = some ⟨12, 8, 1, 1, 1, [.and 0 .ax .bx]⟩ := by decide
theorem test_or : seen (step (at_ ["OR AX, BX"] 0 12 10 0)) = some ⟨12, 14, 0, 1, 1, [.or 0 .ax .bx]⟩ := by decide
theorem test_cmp_equal : seen (step (at_ ["CMP AX, BX"] 0 5 5 0)) = some ⟨5, 5, 1, 1, 1, [.cmp 0 .ax .bx]⟩ := by decide
theorem test_cmp_unequal : seen (step (at_ ["CMP AX, BX"] 0 5 6 1)) = some ⟨5, 6, 0, 1, 1, [.cmp 0 .ax .bx]⟩ := by decide
theorem test_jeq_taken : seen (step (at_ ["#", "JEQ 7"] 1 0 0 1)) = some ⟨0, 0, 1, 6, 1, [.jeqTaken 1 7]⟩ := by decide
theorem test_jeq_falls_through : seen (step (at_ ["#", "JEQ 7"] 1 0 0 0)) = some ⟨0, 0, 0, 2, 1, []⟩ := by decide
theorem test_jneq_taken : seen (step (at_ ["#", "JNEQ 2"] 1 0 0 0)) = some ⟨0, 0, 0, 1, 1, [.jneqTaken 1 2]⟩ := by decide
theorem test_jneq_falls_through : seen (step (at_ ["#", "JNEQ 2"] 1 0 0 1)) = some ⟨0, 0, 1, 2, 1, []⟩ := by decide
theorem test_jmp_to_line_zero : seen (step (at_ ["JMP 0"] 0 0 0 0)) = some ⟨0, 0, 0, -1, 1, [.jmp 0 0]⟩ := by decide
theorem test_jmp_far : seen (step (at_ ["JMP 99999999999999999999"] 0 0 0 0)) =
    some ⟨0, 0, 0, 99999999999999999998, 1, [.jmp 0 99999999999999999999]⟩ := by decide
theorem test_comment_is_not_counted : seen (step (at_ ["# a", "JMP 1"] 0 3 4 1)) = some ⟨3, 4, 1, 1, 0, []⟩ := by decide
theorem test_invalid_halts : (fun o => (seen o, ended o)) (step (at_ ["mov 1, CX"] 0 1 1 0)) =
    (some ⟨1, 1, 0, 0, 0, [.unknown 0]⟩, some (.haltedError, .unknownInstruction)) := by decide
theorem test_loop_exit : ended (step (at_ ["JMP 1"] 1 0 0 0)) = some (.haltedNormal, .normal) := by decide
theorem test_fetch_fault : ended (step (at_ ["JMP 0"] (-1) 0 0 0)) = some (.haltedFault, .fetchOutOfRange) := by decide

/-- BUDGET = 1, a clamp and the budget in one step (95_test_vectors.md 2.11). -/
theorem test_budget_after_clamp : (fun o => (seen o, ended o)) (stepWith (budget 1 (by decide)) (at_ ["MOV 300, AX"] 0 0 0 0)) =
    (some ⟨255, 0, 0, 1, 1, [.move 0 300 .ax, .clampHigh 0 .ax, .tooMany 0]⟩, some (.haltedError, .commandBudget)) := by decide

/-- A placed table word runs as the first instruction after reset. -/
theorem test_fetch_word_runs : seen (step (State.reset.withFetchWord 16 0b0010000000)) = some ⟨0, 0, 0, 1, 1, [.move 0 0 .bx]⟩ := by decide
theorem test_fetch_word_invalid_runs : ended (step (State.reset.withFetchWord 16 0b0000001111)) =
    some (.haltedError, .unknownInstruction) := by decide

/-! ## Loading, bytes, status (95_test_vectors.md 2.1; 10_state.md section 6) -/

theorem test_load_trims_the_whole_text_only :
    loadProgram Params.default "\n MOV 1, AX \n\n  # x\n".toList =
      ["MOV 1, AX ".toList, [], "  # x".toList] := by decide
theorem test_load_of_blanks_is_empty : loadProgram Params.default "   \n  ".toList = [] := by decide
theorem test_utf8_euro : decodeUtf8 [0xE2, 0x82, 0xAC] = some [Char.ofNat 0x20AC] := by decide
theorem test_utf8_refuses_overlong : decodeUtf8 [0xC0, 0x80] = none := by decide
theorem test_status_of_fetch_fault : (statusWord (State.reset.fetchFault)).toNat = 36 := by decide

/-! ## Witnesses: the hypotheses of each statement are met -/

/-- A state with one line that is RUNNING at it; its step is used below. -/
def oneLine (L : String) : State := at_ [L] 0 0 0 0

theorem witness_RegisterOpsFollowTheFamilyRule : isRegisterOp (.mov 300 .ax) = true := rfl
theorem witness_JeqJumpsWhenZxIsOne_both : (at_ ["JEQ 1"] 0 0 0 1).zx = 1 ∧ (at_ ["JEQ 1"] 0 0 0 0).zx = 0 := by decide
theorem witness_CopyWritesTheSource_reflexive : Reg.ax = Reg.ax := rfl
theorem witness_JneqJumpsWhenZxIsZero_both : (at_ ["JNEQ 1"] 0 0 0 0).zx = 0 ∧ (at_ ["JNEQ 1"] 0 0 0 1).zx = 1 := by decide
theorem witness_ClampSaturates : clamp (-1) = 0 ∧ clamp 0 = 0 ∧ clamp 255 = 255 ∧ clamp 256 = 255 ∧
    clampWarning 0 .ax 255 = none ∧ clampWarning 0 .ax 256 = some (.clampHigh 0 .ax) := by decide
theorem witness_ResetGivesEveryResetValue : State.reset.loopExit.rs ≠ .running := by decide
theorem witness_ReadsAreExactOutsideRunning : State.reset.loopExit.rs ≠ .running := by decide
theorem witness_StatusRegisterLayout : hostStatus State.reset.loopExit = hostStatus State.reset.loopExit ∧
    hostStatus State.reset.loopExit = 0b001010 := by decide
theorem witness_JumpsFollowTheCommonRule :
    isJump (.jeq 0) = true ∧ jumpTaken (.jeq 0) (at_ [] 0 0 0 1) = true ∧ jumpTaken (.jeq 0) (at_ [] 0 0 0 0) = false := by decide
theorem witness_JumpTargetDecidesTheNextStep_zero : (at_ ["#"] (-1) 0 0 0).rs = .running ∧ (at_ ["#"] (-1) 0 0 0).pc = targetPc 0 := by decide
theorem witness_JumpTargetDecidesTheNextStep_first_and_last :
    (at_ ["#", "#"] 0 0 0 0).pc = targetPc 1 ∧ (at_ ["#", "#"] 1 0 0 0).pc = targetPc 2 ∧ 2 ≤ (at_ ["#", "#"] 1 0 0 0).P.length := by
  decide
theorem witness_JumpTargetDecidesTheNextStep_beyond : (at_ ["#"] 1 0 0 0).pc = targetPc 2 ∧ (at_ ["#"] 1 0 0 0).P.length < 2 := by decide
theorem witness_StepRunsTheDecodedLine :
    (oneLine "JMP 1").rs = .running ∧ 0 ≤ (oneLine "JMP 1").pc ∧ (oneLine "JMP 1").P[(oneLine "JMP 1").pc.toNat]? = some "JMP 1".toList ∧
      ∃ t, exec (decode "JMP 1".toList) (oneLine "JMP 1") = .next t :=
  ⟨rfl, by decide, by decide, _, rfl⟩
theorem witness_RetireCountsAndTestsTheBudget_not_counted : counts .comment = false := rfl
theorem witness_RetireCountsAndTestsTheBudget_below_and_at_the_budget :
    counts (.jmp 1) = true ∧ (oneLine "JMP 1").cnt + 1 < Params.default.budget ∧
      (budget 1 (by decide)).budget ≤ (oneLine "JMP 1").cnt + 1 := by decide
theorem witness_StepPastTheEndHaltsNormally : (at_ ["#"] 1 0 0 0).rs = .running ∧ ((at_ ["#"] 1 0 0 0).P.length : Int) ≤ (at_ ["#"] 1 0 0 0).pc := by
  decide
theorem witness_StepBelowZeroRaisesTheFetchFault : (at_ ["#"] (-1) 0 0 0).rs = .running ∧ (at_ ["#"] (-1) 0 0 0).pc < 0 := by decide
theorem witness_CommentLineStep :
    (oneLine "# a").rs = .running ∧ 0 ≤ (oneLine "# a").pc ∧
      (oneLine "# a").P[(oneLine "# a").pc.toNat]? = some ('#' :: " a".toList) := by decide
theorem witness_InvalidLineStep :
    (oneLine "FOO").rs = .running ∧ 0 ≤ (oneLine "FOO").pc ∧ (oneLine "FOO").P[(oneLine "FOO").pc.toNat]? = some "FOO".toList ∧
      decode "FOO".toList = .invalid := by decide
theorem witness_OutsideRunningNothingChanges : State.reset.rs ≠ .running := by decide
theorem witness_EveryExecutedInstructionIsCounted :
    (oneLine "JMP 1").rs = .running ∧ fetch (oneLine "JMP 1") = .line "JMP 1".toList ∧
      ∃ t, stepWith Params.default (oneLine "JMP 1") = .next t := ⟨rfl, by decide, _, rfl⟩
theorem witness_SequentialAdvance :
    counts (.jeq 1) = true ∧ jumpTaken (.jeq 1) (oneLine "JEQ 1") = false ∧ (oneLine "JEQ 1").rs = .running ∧
      fetch (oneLine "JEQ 1") = .line "JEQ 1".toList ∧ decode "JEQ 1".toList = .jeq 1 ∧
      ∃ t, stepWith Params.default (oneLine "JEQ 1") = .next t := ⟨rfl, rfl, rfl, by decide, by decide, _, rfl⟩
theorem witness_BudgetHaltKeepsTheInstruction :
    (oneLine "JMP 9").rs = .running ∧ fetch (oneLine "JMP 9") = .line "JMP 9".toList ∧ counts (decode "JMP 9".toList) = true ∧
      (budget 1 (by decide)).budget ≤ (oneLine "JMP 9").cnt + 1 ∧ ∃ u, exec (decode "JMP 9".toList) (oneLine "JMP 9") = .next u :=
  ⟨rfl, by decide, by decide, by decide, _, rfl⟩
theorem witness_RunStateTransitions :
    (oneLine "FOO").rs = .running ∧ ∃ t, stepWith Params.default (oneLine "FOO") = .next t ∧ t.rs = .haltedError := ⟨rfl, _, rfl, rfl⟩
theorem witness_ProgramStoreIsReadOnly :
    (∃ t, exec (.jmp 1) (oneLine "JMP 1") = .next t) ∧
      (∃ t, runSteps Params.default 1 (oneLine "JMP 1") = .next t ∧ t.pc = (oneLine "JMP 1").pc) ∧
      ∃ t, command Params.default (.changeText []) State.reset = .next t := ⟨⟨_, rfl⟩, ⟨_, rfl, rfl⟩, ⟨_, rfl⟩⟩
theorem witness_TraceIsAppendOnly :
    (∃ t, runSteps Params.default 1 (oneLine "JMP 1") = .next t) ∧ ∃ t, command Params.default .reset State.reset = .next t :=
  ⟨⟨_, rfl⟩, ⟨_, rfl⟩⟩
theorem witness_EventsOfOneStepComeInOrder :
    (oneLine "MOV 300, AX").rs = .running ∧ fetch (oneLine "MOV 300, AX") = .line "MOV 300, AX".toList ∧
      counts (decode "MOV 300, AX".toList) = true ∧ ∃ t, stepWith Params.default (oneLine "MOV 300, AX") = .next t :=
  ⟨rfl, by decide, by decide, _, rfl⟩
theorem witness_ZxBelongsToCmpJeqJneq :
    (∃ t, exec (.cmp .ax .bx) (oneLine "#") = .next t ∧ t.zx ≠ (oneLine "#").zx) ∧
      (∀ k, Instr.mov 1 .ax ≠ .jeq k) ∧ (∀ k, Instr.mov 1 .ax ≠ .jneq k) :=
  ⟨⟨_, rfl, by decide⟩, by simp, by simp⟩
theorem witness_EmptyProgramEndsAtOnce : State.reset.rs ≠ .running ∧ trimText Params.default " \n".toList = [] := by decide
theorem witness_RunLoadsTheTrimmedText : State.reset.rs ≠ .running ∧ trimText Params.default "JMP 1\n".toList ≠ [] := by decide
theorem witness_NoStateSurvivesARun : State.reset.rs ≠ .running ∧ State.reset.loopExit.rs ≠ .running := by decide
theorem witness_CommandsAreRefusedWhileRunning : (oneLine "#").rs = .running := rfl
theorem witness_RunFromBytesIsRunOfTheText_some : decodeUtf8 [0x41] = some ['A'] := by decide
theorem witness_RunFromBytesIsRunOfTheText_none : ∀ S, encodeUtf8 S ≠ [0x80] := by
  intro S h
  cases S with
  | nil => cases h
  | cons c S =>
    have hc : encodeUtf8 (c :: S) = utf8OfChar c ++ encodeUtf8 S := rfl
    rw [hc] at h
    unfold utf8OfChar at h
    have hv := c.valid
    simp only [UInt32.isValidChar, Nat.isValidChar] at hv
    simp only at h
    split at h
    · have h0 := congrArg (fun l => (l.map BitVec.toNat).headD 0) h
      simp at h0; omega
    · split at h
      · simp at h
      · split at h <;> simp at h
theorem witness_EveryRunHalts : State.reset.rs ≠ .running := by decide
theorem witness_NormalEndReportsNoError :
    ∃ u, runCall Params.default "MOV 1, AX".toList State.reset = .next u ∧ u.rs = .haltedNormal := ⟨_, rfl, by decide⟩
theorem witness_EveryStepKeepsTheInvariant :
    Inv Params.default (oneLine "JMP 1") ∧ ∃ t, stepWith Params.default (oneLine "JMP 1") = .next t :=
  ⟨⟨by decide, by decide, by decide, by intro e h; simp [oneLine, at_] at h,
    ⟨by decide, by decide, by decide, by decide⟩⟩, _, rfl⟩
theorem witness_CommandsKeepTheInvariant :
    Inv Params.default State.reset ∧ ∃ t, command Params.default (.run "JMP 1".toList) State.reset = .next t :=
  ⟨⟨by decide, by decide, by decide, by intro e h; simp at h, rfl⟩, _, rfl⟩
theorem witness_DecodeRecognisesExactlyTheFormats : Instr.comment ≠ .invalid := by decide
theorem witness_ForeignCharacterMakesTheLineInvalid : 'm' ∈ "mov 5, AX".toList ∧ isGrammarChar 'm' = false := by decide
theorem witness_UndefinedSelectorsFaultAndNeverArise :
    10 ≤ (Decoded.mk 0xA 0 0 0).op.toNat ∧ (Decoded.mk 0xA 0 0 0).op.toNat ≤ 13 ∧ (Decoded.mk 0xD 0 0 0).op.toNat = 13 := by decide
theorem witness_TrimRemovesExactlyTheEnds_head_and_last :
    (trimText Params.default " A\n".toList).head? = some 'A' ∧ (trimText Params.default " A\n".toList).getLast? = some 'A' := by decide
theorem witness_DecimalSpellingIsExact_zero : (dec 0).head? = some '0' := by decide
theorem witness_SaturatingPcFollowsTheIntegerRule :
    ((at_ ["#"] 9 0 0 0).P.length : Int) ≤ 3 ∧ (3 : Int) < (at_ ["#"] 9 0 0 0).pc := by decide
theorem witness_SaturatingPcFollowsTheIntegerRule_register :
    representsPc 2 1 = true ∧ representsPc 2 2 = false ∧ representsPc 0 0 = false ∧ (-1 : Int) ≤ (at_ ["#"] (-1) 0 0 0).pc ∧
      ((at_ ["#"] (-1) 0 0 0).narrow 2).pc = 0b11 ∧ ((at_ ["#"] 9 0 0 0).narrow 2).pc = 0b01 := by decide
theorem witness_SaturatingPcFollowsTheIntegerRule_run :
    (Realisation.mk (some 8) (some 1) (some 2)).conforms = true ∧
      ∃ t, runBounded ⟨some 8, some 1, some 2⟩ Params.default "JMP 255".toList State.reset = .next t := ⟨by decide, _, rfl⟩
theorem witness_WideLiteralsAreRefusedNotWrapped_too_long :
    1 < (loadProgram Params.default "#\n#".toList).length ∧ (loadProgram Params.default "#".toList).length ≤ 1 := by decide
theorem witness_WideLiteralsAreRefusedNotWrapped_refused :
    ∃ L ∈ loadProgram Params.default "JMP 256".toList, ∃ k, (decode L).literal? = some k ∧ 2 ^ 8 ≤ k :=
  ⟨"JMP 256".toList, by decide, 256, by decide, by decide⟩
theorem witness_WideLiteralsAreRefusedNotWrapped_admitted :
    ∀ L ∈ loadProgram Params.default "JMP 255".toList, ∀ k, (decode L).literal? = some k → k < 2 ^ 8 := by
  have h : loadProgram Params.default "JMP 255".toList = ["JMP 255".toList] := by decide
  have hd : (decode "JMP 255".toList).literal? = some 255 := by decide
  intro L hL k hk
  rw [h, List.mem_singleton] at hL
  subst hL
  rw [hd] at hk
  cases hk; decide

end Sys2Proof.Tests
end

/-! The obligations of 10_state.md about the trace (R40), the flag ZX (R28) and what a run inherits from the state before it (R45). -/

namespace Sys2Proof.Proofs

open Sys2Proof Sys2Proof.Machine

/-! ## The flag: what the shared operations do to ZX -/

@[simp] theorem setZx_self (s : State) : s.setZx s.zx = s := rfl

@[simp] theorem mutate_zx (e : Event) (d : Reg) (raw : Int) (s : State) : (mutate e d raw s).zx = s.zx := by
  rw [mutate_eq]

/-- The common end of the register operations neither reads nor writes ZX. -/
theorem mutate_setZx (e : Event) (d : Reg) (raw : Int) (s : State) (v : FlagBit) :
    mutate e d raw (s.setZx v) = (mutate e d raw s).setZx v := by
  rw [mutate_eq, mutate_eq]; rfl

theorem equalFlag_eq_one_iff (a b : Byte) : equalFlag a b = 1 ↔ a = b := by
  unfold equalFlag; split <;> simp_all [eq_comm]

/-! ## The flag: which instructions read and write it -/

/-- The flag after CMP is the comparison's, whatever it was before. -/
theorem exec_cmp_zx (src d : Reg) (s : State) :
    ∃ t, exec (.cmp src d) s = .next t ∧ t.zx = equalFlag (readReg s src) (readReg s d) :=
  ⟨_, rfl, mutate_zx ..⟩

theorem exec_cmp_setZx (src d : Reg) (s : State) (v : FlagBit) : exec (.cmp src d) (s.setZx v) = exec (.cmp src d) s := rfl

/-- An instruction other than the two conditional jumps and CMP commutes with a change of ZX: it does not read the flag, and it
passes the flag on. -/
theorem exec_setZx {i : Instr} (hjeq : ∀ k, i ≠ .jeq k) (hjneq : ∀ k, i ≠ .jneq k) (hcmp : ∀ src d, i ≠ .cmp src d)
    (s : State) (v : FlagBit) : exec i (s.setZx v) = mapNext (fun u => u.setZx v) (exec i s) := by
  cases i with
  | mov k d => exact congrArg _ (mutate_setZx _ d _ s v)
  | add src d => exact congrArg _ (mutate_setZx _ d _ s v)
  | sub src d => exact congrArg _ (mutate_setZx _ d _ s v)
  | copy src d => exact congrArg _ (mutate_setZx _ d _ s v)
  | and src d => exact congrArg _ (mutate_setZx _ d _ s v)
  | or src d => exact congrArg _ (mutate_setZx _ d _ s v)
  | cmp src d => exact absurd rfl (hcmp src d)
  | jeq k => exact absurd rfl (hjeq k)
  | jneq k => exact absurd rfl (hjneq k)
  | jmp k => rfl
  | comment => rfl
  | invalid => rfl

/-- CMP alone writes ZX. The conditional jumps read it and keep it; for every other instruction, putting the flag's own value in
its place changes nothing, so by `exec_setZx` that value is the flag after it. -/
theorem exec_keeps_zx {i : Instr} {s t : State} (h : exec i s = .next t) (hcmp : ∀ src d, i ≠ .cmp src d) : t.zx = s.zx := by
  have passed (hjeq : ∀ k, i ≠ .jeq k) (hjneq : ∀ k, i ≠ .jneq k) : t.zx = s.zx := by
    have hset := exec_setZx hjeq hjneq hcmp s s.zx
    rw [setZx_self, h, mapNext_next] at hset
    rw [Host.Outcome.next.inj hset, setZx_zx]
  cases i with
  | jeq k =>
    have h := Host.Outcome.next.inj h
    split at h <;> exact h ▸ rfl
  | jneq k =>
    have h := Host.Outcome.next.inj h
    split at h <;> exact h ▸ rfl
  | _ => exact passed (by simp) (by simp)

theorem jumpTaken_jeq_iff (k : Nat) (s : State) : jumpTaken (.jeq k) s = true ↔ s.zx = 1 := beq_iff_eq

theorem jumpTaken_jneq_iff (k : Nat) (s : State) : jumpTaken (.jneq k) s = true ↔ s.zx = 0 := beq_iff_eq

/-! ## Host commands -/

theorem eq_reset_of_command {p : Params} {s t : State} (h : command p .reset s = .next t) : t = State.reset := by
  unfold command at h
  split at h
  · cases h
  · exact (Host.Outcome.next.inj h).symm

theorem eq_of_command_changeText {p : Params} {S : Text} {s t : State} (h : command p (.changeText S) s = .next t) :
    s.rs ≠ .running ∧ t = s := by
  unfold command at h
  split at h
  · cases h
  · rename_i hr; exact ⟨hr, (Host.Outcome.next.inj h).symm⟩

/-- An admitted run is the run of the state that RUN sets up. -/
theorem runCall_eq {p : Params} {S : Text} {s : State} (h : s.rs ≠ .running) :
    runCall p S s = runSteps p (stepBound p (startRun p S)) (startRun p S) := by
  unfold runCall; rw [command_run h]

/-! ## Runs of steps -/

/-- The induction over a run: what every step keeps, a run keeps. -/
theorem runSteps_keeps {p : Params} {I : State → Prop} (hstep : ∀ s t, stepWith p s = .next t → I s → I t) {k : Nat}
    {s t : State} (h : runSteps p k s = .next t) (hs : I s) : I t := by
  induction k generalizing s with
  | zero => exact Host.Outcome.next.inj h ▸ hs
  | succ k ih =>
    by_cases hr : s.rs = .running
    · cases hu : stepWith p s with
      | next u => exact ih (runSteps_succ hr hu k ▸ h) (hstep s u hu hs)
      | fault r => simp [runSteps, hr, hu] at h
      | refused r => simp [runSteps, hr, hu] at h
    · rw [runSteps_not_running hr] at h
      exact Host.Outcome.next.inj h ▸ hs

/-! ## The trace -/

theorem trace_prefix_exec {i : Instr} {s t : State} (h : exec i s = .next t) : s.T <+: t.T := by
  obtain ⟨es, hT, -, -⟩ := (exec_cases h).trace
  exact ⟨es, hT.symm⟩

theorem trace_prefix_retire (p : Params) (i : Instr) (line : Nat) (t : State) : t.T <+: (retire p i line t).T :=
  ⟨_, (retire_T p i line t).symm⟩

theorem trace_prefix_stepWith {p : Params} {s t : State} (h : stepWith p s = .next t) : s.T <+: t.T := by
  rcases stepWith_cases h with ⟨-, rfl⟩ | ⟨-, -, rfl⟩ | ⟨-, -, rfl⟩ | ⟨L, u, -, -, -, -, hu, rfl⟩
  · exact List.prefix_rfl
  · exact List.prefix_rfl
  · exact List.prefix_rfl
  · exact (trace_prefix_exec hu).trans (trace_prefix_retire ..)

theorem trace_prefix_runSteps {p : Params} {k : Nat} {s t : State} (h : runSteps p k s = .next t) : s.T <+: t.T :=
  runSteps_keeps (I := fun u => s.T <+: u.T) (fun _ _ hstep hu => hu.trans (trace_prefix_stepWith hstep)) h List.prefix_rfl

/-! ## The obligations -/

/-- Settles O32: each step appends to the trace, and the induction over a run carries that to any number of steps. -/
theorem traceIsAppendOnly : Obligations.TraceIsAppendOnly := by
  refine ⟨fun p k s t h => trace_prefix_runSteps h, fun p s t h => ?_, fun p S s t h => ?_⟩
  · rw [eq_reset_of_command h, reset_T]
  · rw [(eq_of_command_changeText h).2]

/-- Settles O34: the flag's writer, then its readers as a commutation of every other instruction with a change of ZX. -/
theorem zxBelongsToCmpJeqJneq : Obligations.ZxBelongsToCmpJeqJneq := by
  refine ⟨fun s => BitVec.eq_zero_or_eq_one s.zx, fun src d s => ?written, fun i s t h hne => ?onlyCmp,
    fun k s => ⟨jumpTaken_jeq_iff k s, jumpTaken_jneq_iff k s⟩, fun i s v hjeq hjneq => ?notRead, fun p s t h => ?reset⟩
  case written =>
    obtain ⟨t, ht, hzx⟩ := exec_cmp_zx src d s
    exact ⟨t, ht, hzx ▸ equalFlag_eq_one_iff ..⟩
  case onlyCmp =>
    by_contra hcmp
    push Not at hcmp
    exact hne (exec_keeps_zx h hcmp)
  case notRead =>
    split
    · exact exec_cmp_setZx ..
    · rename_i hcmp
      exact exec_setZx hjeq hjneq hcmp s v
  case reset => rw [eq_reset_of_command h, reset_zx]

/-- Settles O38: RUN and the whole run are functions of the text and the parameters alone, once RUN is admitted. -/
theorem noStateSurvivesARun : Obligations.NoStateSurvivesARun := by
  intro p S s s' hs hs'
  exact ⟨by rw [command_run hs, command_run hs'], by rw [runCall_eq hs, runCall_eq hs']⟩

end Sys2Proof.Proofs

/-! The obligations of 40_sequencer.md about one step: the operands (R112), the count (R113), the sequential pc (R114), the halt
(R117), the two line kinds that are not instructions (R108, R110), and the empty program (R103). -/

namespace Sys2Proof.Proofs

open Sys2Proof Sys2Proof.Machine

/-! ## The common end of a register operation, field by field -/

theorem clampByte_natCast_toNat (n : Nat) : (clampByte (n : Int)).toNat = min n 255 := by
  have h := clampByte_toInt (n : Int)
  unfold clamp at h
  omega

/-- A register's own value passes the clamp unchanged. -/
@[simp] theorem clampByte_regInt (s : State) (r : Reg) : clampByte (regInt s r) = readReg s r := clampByte_of_byte _

@[simp] theorem readReg_mutate_self (e : Event) (d : Reg) (raw : Int) (s : State) :
    readReg (mutate e d raw s) d = clampByte raw := by
  rw [mutate_eq, readReg, RegBank.get_set_self]

@[simp] theorem mutate_pc (e : Event) (d : Reg) (raw : Int) (s : State) : (mutate e d raw s).pc = s.pc + 1 := by
  rw [mutate_eq]

@[simp] theorem mutate_T (e : Event) (d : Reg) (raw : Int) (s : State) :
    (mutate e d raw s).T = s.T ++ e :: (clampWarning (lineIndex s) d raw).toList := by
  rw [mutate_eq]

/-! ## The next pc of what is not a taken jump -/

theorem execJeq_of_not_taken {k : Nat} {s : State} (h : jumpTaken (.jeq k) s = false) :
    exec (.jeq k) s = .next (fallThrough s) :=
  congrArg Host.Outcome.next (if_neg (Bool.eq_false_iff.1 h))

theorem execJneq_of_not_taken {k : Nat} {s : State} (h : jumpTaken (.jneq k) s = false) :
    exec (.jneq k) s = .next (fallThrough s) :=
  congrArg Host.Outcome.next (if_neg (Bool.eq_false_iff.1 h))

/-- Every line but an INVALID one and a taken jump completes with the pc at i + 1; a comment is among them. -/
theorem exec_pc_of_not_taken {i : Instr} {s : State} (hi : i ≠ .invalid) (hj : jumpTaken i s = false) :
    ∃ t, exec i s = .next t ∧ t.pc = s.pc + 1 := by
  cases i with
  | mov k d => exact ⟨_, rfl, mutate_pc ..⟩
  | add src d => exact ⟨_, rfl, mutate_pc ..⟩
  | sub src d => exact ⟨_, rfl, mutate_pc ..⟩
  | copy src d => exact ⟨_, rfl, mutate_pc ..⟩
  | and src d => exact ⟨_, rfl, mutate_pc ..⟩
  | or src d => exact ⟨_, rfl, mutate_pc ..⟩
  | cmp src d => exact ⟨_, rfl, mutate_pc ..⟩
  | jeq k => exact ⟨_, execJeq_of_not_taken hj, rfl⟩
  | jneq k => exact ⟨_, execJneq_of_not_taken hj, rfl⟩
  | jmp k => cases hj
  | comment => exact ⟨_, rfl, rfl⟩
  | invalid => exact absurd rfl hi

/-! ## A step that reaches a line is `exec`, then `retire` -/

theorem stepWith_of_exec {p : Params} {s u : State} {L : Line} (hr : s.rs = .running) (hf : fetch s = .line L)
    (hu : exec (decode L) s = .next u) : stepWith p s = .next (retire p (decode L) (lineIndex s) u) := by
  rw [stepWith_line hr hf, runDecoded, hu, mapNext_next]

theorem exec_of_stepWith {p : Params} {s t : State} {L : Line} (hr : s.rs = .running) (hf : fetch s = .line L)
    (h : stepWith p s = .next t) : ∃ u, exec (decode L) s = .next u ∧ t = retire p (decode L) (lineIndex s) u :=
  mapNext_eq_next ((stepWith_line hr hf).symm.trans h)

theorem retire_of_not_counts {i : Instr} (h : counts i = false) (p : Params) (line : Nat) (t : State) :
    retire p i line t = t :=
  if_neg (Bool.eq_false_iff.1 h)

theorem decode_of_hash (rest : Line) : decode ('#' :: rest) = .comment := rfl

/-! ## The obligations -/

/-- Settles O9: each raw value is computed from the state before the write, so it is a function of the one old value twice over. -/
theorem operandsAreReadBeforeTheWrite : Obligations.OperandsAreReadBeforeTheWrite := by
  intro r s
  refine ⟨⟨_, rfl, ?add⟩, ⟨_, rfl, ?sub, ?subTrace⟩, ⟨_, rfl, ?copy⟩, ⟨_, rfl, ?and⟩, ⟨_, rfl, ?or⟩, ⟨_, rfl, ?cmp, ?cmpFlag⟩⟩
  case add => rw [readReg_mutate_self, regInt, ← Nat.cast_add, clampByte_natCast_toNat]
  case sub => rw [readReg_mutate_self, sub_self]; rfl
  case subTrace => rw [mutate_T, sub_self]; rfl
  case copy => rw [readReg_mutate_self, clampByte_regInt]
  case and => rw [readReg_mutate_self, clampByte_of_byte, BitVec.and_self]
  case or => rw [readReg_mutate_self, clampByte_of_byte, BitVec.or_self]
  case cmp => rw [readReg_mutate_self, clampByte_regInt]
  case cmpFlag => rw [mutate_zx, setZx_zx, equalFlag_eq_one_iff]

/-- Settles O26: `exec` keeps the counter, and `retire` adds 1 for the lines that count. -/
theorem everyExecutedInstructionIsCounted : Obligations.EveryExecutedInstructionIsCounted := by
  intro p s t L hr hf h
  obtain ⟨u, hu, rfl⟩ := exec_of_stepWith hr hf h
  rw [retire_cnt, (exec_cases hu).cnt]
  simp only [counts_iff, ← not_or, ite_not]

/-- Settles O27: the pc that `exec` leaves is the step's, because `retire` keeps it. -/
theorem sequentialAdvance : Obligations.SequentialAdvance := by
  intro i s hc hj
  obtain ⟨u, hu, hpc⟩ := exec_pc_of_not_taken ((counts_iff i).1 hc).2 hj
  refine ⟨⟨u, hu, hpc⟩, fun p L t hr hf hL h => ?step⟩
  subst hL
  rw [stepWith_of_exec hr hf hu] at h
  rw [← Host.Outcome.next.inj h, retire_pc, hpc]

/-- Settles O20, by the field lemmas of `halt`. -/
theorem haltSetsOnlyRunStateAndCause : Obligations.HaltSetsOnlyRunStateAndCause := fun s r c =>
  ⟨halt_rs s r c, halt_cause s r c, halt_x s r c, halt_zx s r c, halt_pc s r c, halt_cnt s r c, halt_P s r c, halt_T s r c⟩

/-- Settles O23: the line decodes as COMMENT, which moves the pc and is not counted. -/
theorem commentLineStep : Obligations.CommentLineStep := by
  intro p s rest hr h0 hL
  have hexec : exec (decode ('#' :: rest)) s = .next { s with pc := s.pc + 1 } := by rw [decode_of_hash]; rfl
  rw [stepWith_of_exec hr (fetch_line h0 hL) hexec, decode_of_hash, retire_of_not_counts rfl]

/-- Settles O24: INVALID is not counted, so the step is the parse failure alone. -/
theorem invalidLineStep : Obligations.InvalidLineStep := by
  intro p s L hr h0 hL hd
  have hexec : exec (decode L) s = .next (s.parseFailure (lineIndex s)) := by rw [hd]; rfl
  rw [stepWith_of_exec hr (fetch_line h0 hL) hexec, hd, retire_of_not_counts rfl]
  rfl

/-- Settles O36: RUN of an empty text halts the reset state, and a halted state takes no step. -/
theorem emptyProgramEndsAtOnce : Obligations.EmptyProgramEndsAtOnce := by
  intro p S s hs hS
  have hstart := startRun_empty hS
  refine ⟨startRun p S, command_run hs, ?ends, ?fields⟩
  case ends => exact (runCall_eq hs).trans (runSteps_not_running (by rw [hstart, halt_rs]; decide) _)
  case fields =>
    rw [hstart]
    exact ⟨rfl, rfl, rfl, rfl, rfl, rfl, rfl, reset_x_get⟩

end Sys2Proof.Proofs

/-! The obligations of 41_register_ops.md about the family of register operations as a whole (R141) and the clamp (R131). -/

namespace Sys2Proof.Proofs

open Sys2Proof Sys2Proof.Machine

/-! ## The clamp, range by range -/

theorem clamp_of_neg {v : Int} (h : v < 0) : clamp v = 0 := if_pos h

theorem clamp_of_gt {v : Int} (h : 255 < v) : clamp v = 255 := by
  unfold clamp
  rw [if_neg (by omega), if_pos h]

theorem clampWarning_of_range {v : Int} (h0 : 0 ≤ v) (h1 : v ≤ 255) (i : Nat) (d : Reg) : clampWarning i d v = none := by
  unfold clampWarning
  rw [if_neg (by omega), if_neg (by omega)]

/-! ## The warnings of one write-back -/

theorem clampWarning_length_le_one (i : Nat) (d : Reg) (raw : Int) : (clampWarning i d raw).toList.length ≤ 1 := by
  cases clampWarning i d raw <;> simp

theorem filter_isWarning_clampWarning (i : Nat) (d : Reg) (raw : Int) :
    (clampWarning i d raw).toList.filter isWarning = (clampWarning i d raw).toList :=
  List.filter_eq_self.2 fun _ h => (clampWarning_isWarning h).1

theorem filter_not_isWarning_clampWarning (i : Nat) (d : Reg) (raw : Int) :
    (clampWarning i d raw).toList.filter (fun a => !isWarning a) = [] :=
  List.filter_eq_nil_iff.2 fun _ h => by simp [(clampWarning_isWarning h).1]

/-! ## The one shape of a register operation -/

/-- The common end of the register operations leaves the counter, the run state, the cause and the program store. -/
theorem sameControl_mutate (e : Event) (d : Reg) (raw : Int) (s : State) : SameControl s (mutate e d raw s) := by
  rw [mutate_eq]
  exact ⟨rfl, rfl, rfl, rfl⟩

/-- Every register operation is its action event and one write-back, up to the flag: CMP sets it, the others leave it. -/
theorem exec_registerOp {i : Instr} (hi : isRegisterOp i = true) (s : State) :
    ∃ e d raw v, exec i s = .next ((mutate e d raw s).setZx v) ∧ actionEvent (lineIndex s) i = some e ∧
      isWarning e = false := by
  have kept (e : Event) (d : Reg) (raw : Int) :
      (.next (mutate e d raw s) : Host.Outcome State Fault Refusal) = .next ((mutate e d raw s).setZx s.zx) :=
    congrArg _ (mutate_setZx e d raw s s.zx)
  cases i with
  | mov k d => exact ⟨_, d, _, _, kept .., rfl, rfl⟩
  | add src d => exact ⟨_, d, _, _, kept .., rfl, rfl⟩
  | sub src d => exact ⟨_, d, _, _, kept .., rfl, rfl⟩
  | copy src d => exact ⟨_, d, _, _, kept .., rfl, rfl⟩
  | and src d => exact ⟨_, d, _, _, kept .., rfl, rfl⟩
  | or src d => exact ⟨_, d, _, _, kept .., rfl, rfl⟩
  | cmp src d => exact ⟨_, d, _, _, congrArg Host.Outcome.next (mutate_setZx ..), rfl, rfl⟩
  | jeq k => cases hi
  | jneq k => cases hi
  | jmp k => cases hi
  | comment => cases hi
  | invalid => cases hi

/-! ## The obligations -/

/-- Settles O8: each operation has the one shape, whose trace grows by an action event that is no warning and then by the warning
of one write-back, if there is any. -/
theorem registerOpsFollowTheFamilyRule : Obligations.RegisterOpsFollowTheFamilyRule := by
  intro i s hi
  obtain ⟨e, d, raw, v, hexec, hevent, hwarn⟩ := exec_registerOp hi s
  refine ⟨_, e, e :: (clampWarning (lineIndex s) d raw).toList, hexec, mutate_pc e d raw s, sameControl_mutate e d raw s,
    hevent, mutate_T e d raw s, ?oneAction, ?atMostOneWarning⟩
  case oneAction => rw [List.filter_cons_of_pos (by simp [hwarn]), filter_not_isWarning_clampWarning]
  case atMostOneWarning =>
    rw [List.filter_cons_of_neg (by simp [hwarn]), filter_isWarning_clampWarning]
    exact clampWarning_length_le_one ..

/-- Settles O10, range by range. -/
theorem clampSaturates : Obligations.ClampSaturates := fun v =>
  ⟨clamp_of_neg, clamp_of_gt, clamp_of_range, clampByte_toInt v, clampWarning_of_range⟩

end Sys2Proof.Proofs

/-! The obligation of 42_control_transfer.md about the family of jumps as a whole (R151). -/

namespace Sys2Proof.Proofs

open Sys2Proof Sys2Proof.Machine

/-! ## The two ends of a jump -/

theorem sameControl_takeJump (e : Event) (k : Nat) (s : State) : SameControl s (takeJump e k s) := by
  rw [takeJump_eq]
  exact ⟨rfl, rfl, rfl, rfl⟩

theorem sameControl_fallThrough (s : State) : SameControl s (fallThrough s) := by
  rw [fallThrough_eq]
  exact ⟨rfl, rfl, rfl, rfl⟩

/-! ## The one shape of a jump -/

theorem counts_of_isJump {i : Instr} (hi : isJump i = true) : counts i = true :=
  (counts_iff i).2 ⟨(by rintro rfl; cases hi), (by rintro rfl; cases hi)⟩

/-- Every jump has one target and one event per line. Both are fixed before the state is given, so two states
that differ in the bank share them. -/
theorem exec_jump {i : Instr} (hi : isJump i = true) :
    ∃ (k : Nat) (event : Nat → Event), i.literal? = some k ∧ (∀ line, actionEvent line i = some (event line)) ∧
      ∀ s, exec i s = .next (if jumpTaken i s then takeJump (event (lineIndex s)) k s else fallThrough s) := by
  cases i with
  | jeq k => exact ⟨k, (.jeqTaken · k), rfl, fun _ => rfl, fun _ => rfl⟩
  | jneq k => exact ⟨k, (.jneqTaken · k), rfl, fun _ => rfl, fun _ => rfl⟩
  | jmp k => exact ⟨k, (.jmp · k), rfl, fun _ => rfl, fun _ => rfl⟩
  | mov k d => cases hi
  | add src d => cases hi
  | sub src d => cases hi
  | copy src d => cases hi
  | and src d => cases hi
  | or src d => cases hi
  | cmp src d => cases hi
  | comment => cases hi
  | invalid => cases hi

/-! ## A jump reads no register -/

/-- The controller decides from the flag and never from the bank. -/
theorem jumpTaken_bank (i : Instr) (s : State) (b : RegBank) : jumpTaken i { s with x := b } = jumpTaken i s := by
  cases i <;> rfl

theorem exec_jump_bank {i : Instr} (hi : isJump i = true) (s : State) (b : RegBank) :
    exec i { s with x := b } = mapNext (fun u => { u with x := b }) (exec i s) := by
  obtain ⟨k, event, -, -, hexec⟩ := exec_jump hi
  rw [hexec, hexec, mapNext_next, jumpTaken_bank]
  split <;> rfl

/-! ## The obligation -/

/-- Settles O14: every jump has the one shape, and each of its two ends gives its own half of the rule. A taken jump's trace grows
by its action event alone, so no clamp warning is among what it emits. -/
theorem jumpsFollowTheCommonRule : Obligations.JumpsFollowTheCommonRule := by
  intro i s hi
  obtain ⟨k, event, hk, hevent, hexec⟩ := exec_jump hi
  refine ⟨counts_of_isJump hi, exec_jump_bank hi s, ?_⟩
  cases htaken : jumpTaken i s with
  | true =>
    have hexec : exec i s = .next (takeJump (event (lineIndex s)) k s) := by rw [hexec, if_pos htaken]
    exact ⟨_, k, hexec, hk, rfl, rfl, sameControl_takeJump .., fun _ => ⟨rfl, _, hevent _, rfl⟩, nofun⟩
  | false =>
    have hexec : exec i s = .next (fallThrough s) := by rw [hexec, if_neg (by simp [htaken])]
    exact ⟨_, k, hexec, hk, rfl, rfl, sameControl_fallThrough s, nofun, fun _ => ⟨rfl, rfl⟩⟩

end Sys2Proof.Proofs

/-! The obligations of 30_encoding.md: the decimal spelling (10_state.md R42), the formats (R72 to R79), the encoder, the foreign
characters (R67), the decoded record and its packed word (R82 to R85). -/

namespace Sys2Proof.Proofs

open Sys2Proof Sys2Proof.Machine

/-! ## The decimal spelling -/

theorem isDigits_append_singleton {w : Line} {c : Char} (hw : isDigits w = true) (hc : isDigit c = true) :
    isDigits (w ++ [c]) = true := by
  rw [isDigits_iff] at hw ⊢
  refine ⟨by simp, fun a ha => ?_⟩
  rcases List.mem_append.1 ha with ha | ha
  · exact hw.2 a ha
  · rwa [List.mem_singleton.1 ha]

theorem val_digitChar {n : Nat} (h : n < 10) : val [digitChar n] = n := by
  simp [val, digitChar_toNat h]

theorem decimalDigits_small (fuel : Nat) {n : Nat} (h : n < 10) : decimalDigits (fuel + 1) n = [digitChar n] := if_pos h

theorem decimalDigits_large (fuel : Nat) {n : Nat} (h : ¬ n < 10) :
    decimalDigits (fuel + 1) n = decimalDigits fuel (n / 10) ++ [digitChar (n % 10)] := if_neg h

theorem isDigits_decimalDigits {fuel n : Nat} (h : n < fuel) : isDigits (decimalDigits fuel n) = true := by
  induction fuel generalizing n with
  | zero => omega
  | succ fuel ih =>
    by_cases hn : n < 10
    · rw [decimalDigits_small fuel hn]
      simp [isDigits, isDigit_digitChar hn]
    · rw [decimalDigits_large fuel hn]
      exact isDigits_append_singleton (ih (by omega)) (isDigit_digitChar (by omega))

theorem val_decimalDigits {fuel n : Nat} (h : n < fuel) : val (decimalDigits fuel n) = n := by
  induction fuel generalizing n with
  | zero => omega
  | succ fuel ih =>
    by_cases hn : n < 10
    · rw [decimalDigits_small fuel hn, val_digitChar hn]
    · rw [decimalDigits_large fuel hn, val_append_singleton, ih (by omega), digitChar_toNat (by omega)]
      omega

/-- The digit `0` leads the spelling of 0 alone: a longer spelling begins as that of n / 10, which is not 0. -/
theorem eq_zero_of_leading_zero {fuel n : Nat} (h : n < fuel) (h0 : (decimalDigits fuel n).head? = some '0') : n = 0 := by
  induction fuel generalizing n with
  | zero => omega
  | succ fuel ih =>
    by_cases hn : n < 10
    · rw [decimalDigits_small fuel hn, List.head?_cons, Option.some.injEq] at h0
      have hcode := digitChar_toNat hn
      rw [h0] at hcode
      omega
    · have hne := ((isDigits_iff _).1 (isDigits_decimalDigits (show n / 10 < fuel by omega))).1
      rw [decimalDigits_large fuel hn, List.head?_append_of_ne_nil _ hne] at h0
      have := ih (by omega) h0
      omega

theorem isDigits_dec (n : Nat) : isDigits (dec n) = true := isDigits_decimalDigits n.lt_succ_self

theorem val_dec (n : Nat) : val (dec n) = n := val_decimalDigits n.lt_succ_self

/-! ## A line of a format is decoded by the arm of its mnemonic -/

/-- The first arm that answers an instruction gives the meaning of a line that is no comment. -/
theorem decode_of_arm (n : Nat) {L : Line} {i : Instr} (hc : isComment L = false)
    (hbefore : (decodeArms L).take n = List.replicate n none) (harm : (decodeArms L)[n]? = some (some i)) : decode L = i := by
  obtain ⟨hn, hget⟩ := List.getElem?_eq_some_iff.1 harm
  have hfirst : (decodeArms L).findSome? id = some i := by
    rw [← List.take_append_drop n (decodeArms L), hbefore, List.drop_eq_getElem_cons hn, hget, List.findSome?_append]
    simp
  rw [decode, hc, hfirst]
  rfl

/-- Each mnemonic is read by its own arm: the arms before it fail on a letter of the mnemonic itself. -/
theorem decode_of_formatOf {i : Instr} {L : Line} (h : formatOf i L) : decode L = i := by
  have regReg {m : String} {op : Reg → Reg → Instr} {s d : Reg} (h : formatRegReg m s d L) :
      some (decodeRegReg m op L) = some (some (op s d)) :=
    congrArg some ((decodeRegReg_eq_some_iff ..).2 ⟨s, d, rfl, h⟩)
  have target {m : String} {op : Nat → Instr} {k : Nat} (h : formatTarget m k L) :
      some (decodeTarget m op L) = some (some (op k)) :=
    congrArg some ((decodeTarget_eq_some_iff ..).2 ⟨k, rfl, h⟩)
  cases i with
  | mov k d =>
    have harm := congrArg some ((decodeImmReg_eq_some_iff ..).2 ⟨k, d, rfl, h⟩)
    obtain ⟨w, -, -, rfl⟩ := h
    exact decode_of_arm 0 rfl rfl harm
  | add s d => have harm := regReg (op := .add) h; subst h; exact decode_of_arm 1 rfl rfl harm
  | sub s d => have harm := regReg (op := .sub) h; subst h; exact decode_of_arm 2 rfl rfl harm
  | copy s d => have harm := regReg (op := .copy) h; subst h; exact decode_of_arm 3 rfl rfl harm
  | and s d => have harm := regReg (op := .and) h; subst h; exact decode_of_arm 4 rfl rfl harm
  | or s d => have harm := regReg (op := .or) h; subst h; exact decode_of_arm 5 rfl rfl harm
  | cmp s d => have harm := regReg (op := .cmp) h; subst h; exact decode_of_arm 6 rfl rfl harm
  | jeq k =>
    have harm := target (op := .jeq) h
    obtain ⟨w, -, -, rfl⟩ := h
    exact decode_of_arm 7 rfl rfl harm
  | jneq k =>
    have harm := target (op := .jneq) h
    obtain ⟨w, -, -, rfl⟩ := h
    exact decode_of_arm 8 rfl rfl harm
  | jmp k =>
    have harm := target (op := .jmp) h
    obtain ⟨w, -, -, rfl⟩ := h
    exact decode_of_arm 9 rfl rfl harm
  | comment => obtain ⟨rest, rfl⟩ := h; exact decode_of_hash rest
  | invalid => cases h

/-! ## A line that is decoded is one of its format -/

theorem formatOf_of_mem_decodeArms {i : Instr} {L : Line} (h : some i ∈ decodeArms L) : formatOf i L := by
  have regReg {m : String} {op : Reg → Reg → Instr} (h : some i = decodeRegReg m op L)
      (hop : ∀ s d, formatRegReg m s d L → formatOf (op s d) L) : formatOf i L := by
    obtain ⟨s, d, rfl, hL⟩ := (decodeRegReg_eq_some_iff ..).1 h.symm
    exact hop s d hL
  have target {m : String} {op : Nat → Instr} (h : some i = decodeTarget m op L)
      (hop : ∀ k, formatTarget m k L → formatOf (op k) L) : formatOf i L := by
    obtain ⟨k, rfl, hL⟩ := (decodeTarget_eq_some_iff ..).1 h.symm
    exact hop k hL
  simp only [decodeArms, List.mem_cons, List.not_mem_nil, or_false] at h
  rcases h with h | h | h | h | h | h | h | h | h | h
  case inl =>
    obtain ⟨k, d, rfl, hL⟩ := (decodeImmReg_eq_some_iff ..).1 h.symm
    exact hL
  iterate 6 exact regReg h fun _ _ hL => hL
  iterate 3 exact target h fun _ hL => hL

theorem formatOf_decode {L : Line} (h : decode L ≠ .invalid) : formatOf (decode L) L := by
  by_cases hc : isComment L = true
  · rw [decode, if_pos hc]
    exact List.head?_eq_some_iff.1 (beq_iff_eq.1 hc)
  · have hd : decode L = ((decodeArms L).findSome? id).getD .invalid := if_neg hc
    cases hfirst : (decodeArms L).findSome? id with
    | none => rw [hd, hfirst] at h; exact absurd rfl h
    | some i =>
      obtain ⟨a, ha, rfl⟩ := List.exists_of_findSome?_eq_some hfirst
      rw [hd, hfirst]
      exact formatOf_of_mem_decodeArms ha

theorem decode_eq_iff {L : Line} {i : Instr} (hi : i ≠ .invalid) : decode L = i ↔ formatOf i L :=
  ⟨fun h => h ▸ formatOf_decode (h ▸ hi), decode_of_formatOf⟩

/-! ## The encoder writes a line of the format -/

theorem formatOf_encode {i : Instr} (hi : i ≠ .invalid) : formatOf i (encode i) := by
  have target (m : String) (k : Nat) : formatTarget m k (encodeTarget m k) := ⟨dec k, isDigits_dec k, val_dec k, rfl⟩
  cases i with
  | mov k d => exact ⟨dec k, isDigits_dec k, val_dec k, rfl⟩
  | jeq k => exact target "JEQ" k
  | jneq k => exact target "JNEQ" k
  | jmp k => exact target "JMP" k
  | comment => exact ⟨[], rfl⟩
  | invalid => exact absurd rfl hi
  | _ => rfl

/-! ## The characters of a line of a format -/

theorem all_isGrammarChar_regName (r : Reg) : (regName r).all isGrammarChar = true := by cases r <;> decide

theorem all_isGrammarChar_of_isDigits {w : Line} (hw : isDigits w = true) : w.all isGrammarChar = true :=
  List.all_eq_true.2 fun c hc => by rw [isGrammarChar, ((isDigits_iff w).1 hw).2 c hc, Bool.true_or]

theorem all_isGrammarChar_of_formatOf {i : Instr} {L : Line} (h : formatOf i L) (hi : i ≠ .comment) :
    L.all isGrammarChar = true := by
  have regReg {m : String} {s d : Reg} (hm : m.toList.all isGrammarChar = true) (h : formatRegReg m s d L) :
      L.all isGrammarChar = true := by
    rw [h]
    simp only [List.all_append, hm, all_isGrammarChar_regName, Bool.and_true, Bool.true_and]
    decide
  have target {m : String} {k : Nat} (hm : m.toList.all isGrammarChar = true) (h : formatTarget m k L) :
      L.all isGrammarChar = true := by
    obtain ⟨w, hw, -, rfl⟩ := h
    simp only [List.all_append, hm, all_isGrammarChar_of_isDigits hw, Bool.and_true, Bool.true_and]
    decide
  cases i with
  | mov k d =>
    obtain ⟨w, hw, -, rfl⟩ := h
    simp only [List.all_append, all_isGrammarChar_of_isDigits hw, all_isGrammarChar_regName, Bool.and_true]
    decide
  | add s d => exact regReg (by decide) h
  | sub s d => exact regReg (by decide) h
  | copy s d => exact regReg (by decide) h
  | and s d => exact regReg (by decide) h
  | or s d => exact regReg (by decide) h
  | cmp s d => exact regReg (by decide) h
  | jeq k => exact target (by decide) h
  | jneq k => exact target (by decide) h
  | jmp k => exact target (by decide) h
  | comment => exact absurd rfl hi
  | invalid => cases h

/-! ## The decoded record -/

theorem recordIsProper (i : Instr) : Laws.RecordIsProper.Statement i := by
  cases i with
  | mov k d => exact Laws.RecordIsProper.mov k d
  | add s d => exact Laws.RecordIsProper.add s d
  | sub s d => exact Laws.RecordIsProper.sub s d
  | copy s d => exact Laws.RecordIsProper.copy s d
  | and s d => exact Laws.RecordIsProper.and s d
  | or s d => exact Laws.RecordIsProper.or s d
  | cmp s d => exact Laws.RecordIsProper.cmp s d
  | jeq k => exact Laws.RecordIsProper.jeq k
  | jneq k => exact Laws.RecordIsProper.jneq k
  | jmp k => exact Laws.RecordIsProper.jmp k
  | comment => exact Laws.RecordIsProper.comment
  | invalid => exact Laws.RecordIsProper.invalid

theorem instr?_record (i : Instr) : i.record.instr? = some i := by
  rw [Decoded.instr?, if_pos (recordIsProper i).1]
  cases i <;> simp [Instr.record]

/-- The three fields of the packed word do not overlap, so the word is the sum of 30_encoding.md R82. -/
theorem word_toNat (r : Decoded) : r.word.toNat = r.d.toNat * 128 + r.s.toNat * 16 + r.op.toNat := by
  have hop := r.op.isLt
  have hs := r.s.isLt
  rw [Decoded.word, BitVec.toNat_append, BitVec.toNat_append, ← Nat.shiftLeft_add_eq_or_of_lt hop,
    ← Nat.shiftLeft_add_eq_or_of_lt hs, Nat.shiftLeft_eq, Nat.shiftLeft_eq]
  omega

theorem ofWord_word (r : Decoded) : Decoded.ofWord r.word r.k = r := by
  have hword := word_toNat r
  have hop := r.op.isLt
  have hs := r.s.isLt
  have hd := r.d.isLt
  have field (start len : Nat) (f : BitVec len) (h : r.word.toNat / 2 ^ start % 2 ^ len = f.toNat) :
      r.word.extractLsb' start len = f :=
    BitVec.eq_of_toNat_eq (by rw [BitVec.extractLsb'_toNat, Nat.shiftRight_eq_div_pow, h])
  rw [Decoded.ofWord, field 0 4 r.op (by omega), field 4 3 r.s (by omega), field 7 3 r.d (by omega)]

theorem instr?_of_undefined_selector {r : Decoded} (h10 : 10 ≤ r.op.toNat) (h13 : r.op.toNat ≤ 13) : r.instr? = none := by
  have hwf : r.wellFormed = false := by
    unfold Decoded.wellFormed
    obtain h | h | h | h : r.op.toNat = 10 ∨ r.op.toNat = 11 ∨ r.op.toNat = 12 ∨ r.op.toNat = 13 := by omega
    all_goals rw [h]; rfl
  rw [Decoded.instr?, hwf]
  rfl

/-! ## The obligations -/

/-- Settles O57: the three facts about the digits, each by the recursion on n / 10. -/
theorem decimalSpellingIsExact : Obligations.DecimalSpellingIsExact := fun n =>
  ⟨isDigits_dec n, val_dec n, fun h0 => by
    obtain rfl := eq_zero_of_leading_zero n.lt_succ_self h0
    exact ⟨rfl, rfl⟩⟩

/-- Settles O49: the arm of a format answers its lines, and what an arm answers is of its format. -/
theorem decodeRecognisesExactlyTheFormats : Obligations.DecodeRecognisesExactlyTheFormats := by
  refine ⟨fun L i hi => decode_eq_iff hi, fun L => ⟨fun h i hi => ?noFormat, fun h => ?invalid⟩⟩
  case noFormat =>
    obtain rfl := (decode_of_formatOf hi).symm.trans h
    exact hi
  case invalid =>
    by_contra hne
    exact h _ (formatOf_decode hne)

/-- Settles O48: the encoder's line is one of the instruction's format, and INVALID's is the empty line. -/
theorem decodeReadsTheEncoderBack : Obligations.DecodeReadsTheEncoderBack := by
  intro i
  by_cases hi : i = .invalid
  · subst hi; rfl
  · exact decode_of_formatOf (formatOf_encode hi)

/-- Settles O50: a line that is neither has a format, and a format holds no foreign character. -/
theorem foreignCharacterMakesTheLineInvalid : Obligations.ForeignCharacterMakesTheLineInvalid := by
  intro L c hc hforeign
  by_contra hne
  obtain ⟨hcomment, hinvalid⟩ := not_or.1 hne
  have hall := all_isGrammarChar_of_formatOf (formatOf_decode hinvalid) hcomment
  exact Bool.false_ne_true (hforeign.symm.trans (List.all_eq_true.1 hall c hc))

/-- Settles O51: the fields of the word do not overlap; the records and register numbers are the definitions' own values. -/
theorem packedWordKeepsTheRecord : Obligations.PackedWordKeepsTheRecord :=
  ⟨fun i => ⟨ofWord_word _, instr?_record i, word_toNat _⟩,
    fun _ _ _ => ⟨rfl, rfl, rfl, rfl, rfl, rfl, rfl, rfl, rfl, rfl, rfl, rfl⟩,
    rfl, rfl, rfl, rfl, rfl, rfl, rfl, rfl⟩

/-- Settles O52: no record of an undefined selector has an instruction, and every record of an instruction gives it back. -/
theorem undefinedSelectorsFaultAndNeverArise : Obligations.UndefinedSelectorsFaultAndNeverArise := by
  refine ⟨fun r s h10 h13 => ?faults, fun L s => ?executes, fun L => (recordIsProper _).2⟩
  case faults => rw [execRecord, instr?_of_undefined_selector h10 h13]
  case executes => rw [execRecord, instr?_record]

/-- Settles O53, by evaluation of the eleven literal lines and words. -/
theorem specLinesDecodeAsWritten : Obligations.SpecLinesDecodeAsWritten := by
  unfold Obligations.SpecLinesDecodeAsWritten
  decide

end Sys2Proof.Proofs

/-! The obligations of 41_register_ops.md instruction by instruction (R133 to R139): each is the common end of the register
operations with its own event, destination and raw value. -/

namespace Sys2Proof.Proofs

open Sys2Proof Sys2Proof.Machine

/-! ## What the common end of a register operation leaves behind -/

@[simp] theorem mutate_x (e : Event) (d : Reg) (raw : Int) (s : State) :
    (mutate e d raw s).x = s.x.set d (clampByte raw) := by
  rw [mutate_eq]

theorem readReg_mutate_of_ne (e : Event) {d r : Reg} (raw : Int) (s : State) (h : r ≠ d) :
    readReg (mutate e d raw s) r = readReg s r := by
  rw [readReg, mutate_x, RegBank.get_set_of_ne _ _ h, readReg]

/-- The result of a register operation, from the number its raw value clamps to and the warning of that raw value. -/
theorem registerResult_mutate (e : Event) (d : Reg) {raw : Int} {s : State} {v : Nat} {es : List Event}
    (hv : (clampByte raw).toNat = v) (hes : (clampWarning (lineIndex s) d raw).toList = es) :
    RegisterResult s (mutate e d raw s) d v ([e] ++ es) :=
  ⟨by rw [readReg_mutate_self, hv], fun _ hr => readReg_mutate_of_ne e raw s hr, mutate_pc ..,
    by rw [mutate_T, hes]; rfl, sameControl_mutate ..⟩

/-- The result where the raw value is one that a register holds: no warning. -/
theorem registerResult_mutate_byte (e : Event) (d : Reg) (b : Byte) (s : State) :
    RegisterResult s (mutate e d (b.toNat : Int) s) d b.toNat [e] :=
  registerResult_mutate e d (by rw [clampByte_of_byte]) (by rw [clampWarning_of_byte]; rfl)

/-! ## The raw values of the family -/

theorem clampWarning_natCast (i : Nat) (d : Reg) (n : Nat) :
    (clampWarning i d (n : Int)).toList = if 255 < n then [.clampHigh i d] else [] := by
  unfold clampWarning
  rw [if_neg (by omega)]
  by_cases h : 255 < n
  · rw [if_pos (by omega), if_pos h]; rfl
  · rw [if_neg (by omega), if_neg h]; rfl

/-- SUB's raw value saturates as the subtraction of natural numbers does. -/
theorem clampByte_sub_toNat {a : Nat} (ha : a ≤ 255) (b : Nat) : (clampByte ((a : Int) - b)).toNat = a - b := by
  have h := clampByte_toInt ((a : Int) - b)
  unfold clamp at h
  omega

theorem clampWarning_sub {a : Nat} (ha : a ≤ 255) (b i : Nat) (d : Reg) :
    (clampWarning i d ((a : Int) - b)).toList = if a < b then [.clampLow i d] else [] := by
  unfold clampWarning
  by_cases h : a < b
  · rw [if_pos (by omega), if_pos h]; rfl
  · rw [if_neg (by omega), if_neg (by omega), if_neg h]; rfl

theorem readReg_toNat_le (s : State) (r : Reg) : (readReg s r).toNat ≤ 255 := Nat.le_of_lt_succ (readReg s r).isLt

/-! ## The obligations -/

/-- Settles O1: the raw value is the literal itself. -/
theorem movWritesTheSaturatedLiteral : Obligations.MovWritesTheSaturatedLiteral := fun k d _ =>
  ⟨_, rfl, mutate_zx .., registerResult_mutate _ d (clampByte_natCast_toNat k) (clampWarning_natCast ..)⟩

/-- Settles O2: the raw value is the sum of two registers, a natural number. -/
theorem addWritesTheSaturatedSum : Obligations.AddWritesTheSaturatedSum := by
  intro src d s
  have hraw : regInt s d + regInt s src = (((readReg s src).toNat + (readReg s d).toNat : Nat) : Int) := by
    rw [regInt, regInt, Nat.cast_add, add_comm]
  exact ⟨_, rfl, mutate_zx .., registerResult_mutate _ d (by rw [hraw, clampByte_natCast_toNat])
    (by rw [hraw, clampWarning_natCast])⟩

/-- Settles O3: the raw value is below 0 exactly where the destination is the smaller one. -/
theorem subWritesTheSaturatedDifference : Obligations.SubWritesTheSaturatedDifference := fun _ d s =>
  ⟨_, rfl, mutate_zx .., registerResult_mutate _ d (clampByte_sub_toNat (readReg_toNat_le s d) _)
    (clampWarning_sub (readReg_toNat_le s d) ..)⟩

/-- Settles O4: the raw value is a register's own, so nothing clamps, and written to its own register it changes nothing. -/
theorem copyWritesTheSource : Obligations.CopyWritesTheSource := by
  intro src d s
  refine ⟨_, rfl, mutate_zx .., registerResult_mutate_byte _ d (readReg s src) s, ?sourceKept, ?reflexive, rfl⟩
  case sourceKept =>
    by_cases h : src = d
    · subst h; rw [readReg_mutate_self, clampByte_regInt]
    · rw [readReg_mutate_of_ne _ _ _ h]
  case reflexive =>
    rintro rfl
    rw [mutate_x, clampByte_regInt, readReg, RegBank.set_get_self]

/-- Settles O5: the raw value is a byte, the conjunction of two. -/
theorem andIsBitwise : Obligations.AndIsBitwise := fun src d s =>
  ⟨_, rfl, mutate_zx .., BitVec.toNat_and (readReg s d) (readReg s src) ▸ registerResult_mutate_byte _ d _ s⟩

/-- Settles O6: the raw value is a byte, the disjunction of two. -/
theorem orIsBitwise : Obligations.OrIsBitwise := fun src d s =>
  ⟨_, rfl, mutate_zx .., BitVec.toNat_or (readReg s d) (readReg s src) ▸ registerResult_mutate_byte _ d _ s⟩

/-- Settles O7: CMP writes the destination's own value back, which changes no register and clamps nothing; the flag is the one
field it moves beside those of the family. -/
theorem cmpSetsZxToEquality : Obligations.CmpSetsZxToEquality := by
  intro src d s
  refine ⟨_, rfl, ?bank, ?flag, registerResult_mutate_byte _ d (readReg s d) (s.setZx _)⟩
  case bank =>
    rw [mutate_x, clampByte_regInt]
    exact RegBank.set_get_self s.x d
  case flag =>
    rw [mutate_zx, setZx_zx, equalFlag]
    simp only [← BitVec.toNat_inj]
    split <;> rfl

end Sys2Proof.Proofs

/-! The obligations of 42_control_transfer.md jump by jump (R152 to R155) and of 43_comment_and_invalid.md (R166, R167). -/

namespace Sys2Proof.Proofs

open Sys2Proof Sys2Proof.Machine

theorem jumpTaken_jeq_of_zero {s : State} (h : s.zx = 0) (k : Nat) : jumpTaken (.jeq k) s = false := by
  simp [jumpTaken, flagSaysEqual, h]

theorem jumpTaken_jneq_of_one {s : State} (h : s.zx = 1) (k : Nat) : jumpTaken (.jneq k) s = false := by
  simp [jumpTaken, flagSaysNotEqual, h]

/-- Settles O11: the common rule of the jumps, with the flag deciding. -/
theorem jeqJumpsWhenZxIsOne : Obligations.JeqJumpsWhenZxIsOne := by
  intro k s
  obtain ⟨-, -, t, _, hexec, ⟨⟩, hx, hzx, hcontrol, htaken, hnot⟩ := jumpsFollowTheCommonRule (.jeq k) s rfl
  refine ⟨t, hexec, hx, hzx, hcontrol, fun h => ?taken, fun h => hnot (jumpTaken_jeq_of_zero h k)⟩
  case taken =>
    obtain ⟨hpc, _, ⟨⟩, hT⟩ := htaken ((jumpTaken_jeq_iff k s).2 h)
    exact ⟨hpc, hT⟩

/-- Settles O12: the common rule of the jumps, with the flag deciding the other way. -/
theorem jneqJumpsWhenZxIsZero : Obligations.JneqJumpsWhenZxIsZero := by
  intro k s
  obtain ⟨-, -, t, _, hexec, ⟨⟩, hx, hzx, hcontrol, htaken, hnot⟩ := jumpsFollowTheCommonRule (.jneq k) s rfl
  refine ⟨t, hexec, hx, hzx, hcontrol, fun h => ?taken, fun h => hnot (jumpTaken_jneq_of_one h k)⟩
  case taken =>
    obtain ⟨hpc, _, ⟨⟩, hT⟩ := htaken ((jumpTaken_jneq_iff k s).2 h)
    exact ⟨hpc, hT⟩

/-- Settles O13: JMP is a taken jump in every state. -/
theorem jmpAlwaysJumps : Obligations.JmpAlwaysJumps := by
  intro k s
  obtain ⟨-, -, t, _, hexec, ⟨⟩, hx, hzx, hcontrol, htaken, -⟩ := jumpsFollowTheCommonRule (.jmp k) s rfl
  obtain ⟨hpc, _, ⟨⟩, hT⟩ := htaken rfl
  exact ⟨t, hexec, hx, hzx, hcontrol, hpc, hT⟩

/-- Settles O15: the fetch of the next step, by where k − 1 lies. -/
theorem jumpTargetDecidesTheNextStep : Obligations.JumpTargetDecidesTheNextStep := by
  intro p k s hr hpc
  unfold targetPc at hpc
  refine ⟨fun hk => ?zero, fun h1 hk => ?inside, fun hk => ?beyond⟩
  case zero => exact ⟨by omega, stepWith_beforeStart hr (fetch_beforeStart (by omega))⟩
  case inside =>
    have hline : s.P[k - 1]? = some s.P[k - 1] := List.getElem?_eq_getElem (by omega)
    exact ⟨_, hline, fetch_line (by omega) (by rwa [show s.pc.toNat = k - 1 by omega])⟩
  case beyond => exact stepWith_pastEnd hr (fetch_pastEnd (by omega))

/-- Settles O16: a comment ends as a jump that is not taken does. -/
theorem commentMovesOnlyThePc : Obligations.CommentMovesOnlyThePc := fun s =>
  ⟨congrArg Host.Outcome.next (fallThrough_eq s), rfl⟩

/-- Settles O17: INVALID is the parse failure of its own line. -/
theorem invalidHaltsWhereItStands : Obligations.InvalidHaltsWhereItStands := fun _ => ⟨rfl, rfl⟩

end Sys2Proof.Proofs

/-! The obligations of 40_sequencer.md about one step in full: what it runs and retires (R104 to R116), where it goes (R126),
what it emits (R121), and that it always answers (60_exceptions.md R181); the program store (20_memory.md R53, R63). -/

namespace Sys2Proof.Proofs

open Sys2Proof Sys2Proof.Machine

/-! ## Retiring a line -/

/-- The inversion of `retire`: the line does not count, or it counts below the budget, or it reaches the budget. -/
theorem retire_cases (p : Params) (i : Instr) (line : Nat) (t : State) :
    counts i = false ∧ retire p i line t = t ∨
    counts i = true ∧ t.cnt + 1 < p.budget ∧ retire p i line t = t.setCnt (t.cnt + 1) ∨
    counts i = true ∧ p.budget ≤ t.cnt + 1 ∧ retire p i line t = (t.setCnt (t.cnt + 1)).budgetExceeded line := by
  cases hc : counts i with
  | false => exact .inl ⟨rfl, retire_of_not_counts hc p line t⟩
  | true =>
    have hretire : retire p i line t = t.countInstruction p line := if_pos hc
    rw [hretire]
    exact .inr ((countInstruction_cases p line t).imp (⟨rfl, ·⟩) (⟨rfl, ·⟩))

theorem retire_below_budget {p : Params} {i : Instr} {t : State} (hc : counts i = true) (hb : t.cnt + 1 < p.budget)
    (line : Nat) : retire p i line t = t.setCnt (t.cnt + 1) := by
  rcases retire_cases p i line t with ⟨hc', -⟩ | ⟨-, -, h⟩ | ⟨-, hb', -⟩
  · exact absurd (hc.symm.trans hc') (by decide)
  · exact h
  · omega

theorem retire_at_budget {p : Params} {i : Instr} {t : State} (hc : counts i = true) (hb : p.budget ≤ t.cnt + 1)
    (line : Nat) : retire p i line t = (t.setCnt (t.cnt + 1)).budgetExceeded line := by
  rcases retire_cases p i line t with ⟨hc', -⟩ | ⟨-, hb', -⟩ | ⟨-, -, h⟩
  · exact absurd (hc.symm.trans hc') (by decide)
  · omega
  · exact h

theorem counts_invalid : counts .invalid = false := rfl

/-! ## Every instruction and every step answers -/

theorem exec_answers (i : Instr) (s : State) : ∃ t, exec i s = .next t := by
  cases i with
  | mov k d => exact ⟨_, rfl⟩
  | add src d => exact ⟨_, rfl⟩
  | sub src d => exact ⟨_, rfl⟩
  | copy src d => exact ⟨_, rfl⟩
  | and src d => exact ⟨_, rfl⟩
  | or src d => exact ⟨_, rfl⟩
  | cmp src d => exact ⟨_, rfl⟩
  | jeq k => exact ⟨_, rfl⟩
  | jneq k => exact ⟨_, rfl⟩
  | jmp k => exact ⟨_, rfl⟩
  | comment => exact ⟨_, rfl⟩
  | invalid => exact ⟨_, rfl⟩

theorem stepWith_answers (p : Params) (s : State) : ∃ t, stepWith p s = .next t := by
  by_cases hr : s.rs = .running
  · rcases fetch_cases s with ⟨hf, -⟩ | ⟨hf, -⟩ | ⟨L, hf, -⟩
    · exact ⟨_, stepWith_pastEnd hr hf⟩
    · exact ⟨_, stepWith_beforeStart hr hf⟩
    · obtain ⟨u, hu⟩ := exec_answers (decode L) s
      exact ⟨_, stepWith_of_exec hr hf hu⟩
  · exact ⟨s, stepWith_not_running hr⟩

/-! ## The run state after a line -/

theorem exec_rs {i : Instr} {s t : State} (h : exec i s = .next t) :
    t.rs = if i = .invalid then .haltedError else s.rs := by
  rcases (exec_cases h).control with ⟨hi, rfl⟩ | ⟨hi, hrs, -⟩
  · rw [if_pos hi]; rfl
  · rw [if_neg hi, hrs]

/-- A line leaves RUNNING only to HALTED_ERROR: by INVALID, or by the budget. -/
theorem rs_after_line {p : Params} {i : Instr} {s u : State} (hr : s.rs = .running) (hu : exec i s = .next u) (line : Nat) :
    (retire p i line u).rs =
      if i = .invalid ∨ (counts i = true ∧ p.budget ≤ s.cnt + 1) then .haltedError else .running := by
  rw [retire_rs, exec_rs hu, (exec_cases hu).cnt, hr]
  by_cases hb : counts i = true ∧ p.budget ≤ s.cnt + 1
  · rw [if_pos hb, if_pos (.inr hb)]
  · by_cases hi : i = .invalid
    · rw [if_neg hb, if_pos hi, if_pos (.inl hi)]
    · rw [if_neg hb, if_neg hi, if_neg (not_or.2 ⟨hi, hb⟩)]

/-! ## The program store -/

theorem store_of_stepWith {p : Params} {s t : State} (h : stepWith p s = .next t) : t.P = s.P := by
  rcases stepWith_cases h with ⟨-, rfl⟩ | ⟨-, -, rfl⟩ | ⟨-, -, rfl⟩ | ⟨L, u, -, -, -, -, hu, rfl⟩
  · rfl
  · rfl
  · rfl
  · rw [retire_P, (exec_cases hu).store]

theorem store_of_runSteps {p : Params} {k : Nat} {s t : State} (h : runSteps p k s = .next t) : t.P = s.P :=
  runSteps_keeps (I := fun u => u.P = s.P) (fun _ _ hstep hu => (store_of_stepWith hstep).trans hu) h rfl

/-- The fetch reads the store and the pc alone. -/
theorem fetch_congr {s t : State} (hP : t.P = s.P) (hpc : t.pc = s.pc) : fetch t = fetch s := by
  simp only [fetch, lineIndex, hP, hpc]

/-! ## The events of one instruction -/

theorem isRegisterOp_or_isJump {i : Instr} (h : counts i = true) : isRegisterOp i = true ∨ isJump i = true := by
  cases i <;> simp [isRegisterOp, isJump] <;> cases h

theorem not_isJump_of_isRegisterOp {i : Instr} (h : isRegisterOp i = true) : isJump i = false := by
  cases i <;> simp_all [isRegisterOp, isJump]

/-- The action event of an instruction as it runs: none for a jump that is not taken. -/
def emittedAction (i : Instr) (s : State) : List Event :=
  if isJump i = true ∧ jumpTaken i s = false then [] else (actionEvent (lineIndex s) i).toList

/-- An executed instruction emits its action event, and then one warning at most. -/
theorem exec_events {i : Instr} {s u : State} (hc : counts i = true) (hu : exec i s = .next u) :
    ∃ w, u.T = s.T ++ emittedAction i s ++ w ∧ w.length ≤ 1 ∧ ∀ e ∈ w, isWarning e = true := by
  unfold emittedAction
  rcases isRegisterOp_or_isJump hc with hi | hi
  · obtain ⟨e, d, raw, v, hexec, hevent, -⟩ := exec_registerOp hi s
    obtain rfl := Host.Outcome.next.inj (hu.symm.trans hexec)
    refine ⟨_, ?_, clampWarning_length_le_one (lineIndex s) d raw, fun _ he => (clampWarning_isWarning he).1⟩
    rw [setZx_T, mutate_T, hevent, if_neg (by simp [not_isJump_of_isRegisterOp hi])]
    simp
  · obtain ⟨k, event, -, hevent, hexec⟩ := exec_jump hi
    obtain rfl := Host.Outcome.next.inj (hu.symm.trans (hexec s))
    refine ⟨[], ?_, by simp, by simp⟩
    cases htaken : jumpTaken i s with
    | true => simp [hevent, takeJump_eq]
    | false => simp [hi, fallThrough_eq]

/-! ## The obligations -/

/-- Settles O18: the fetch finds the line at the pc; the host's step is the case of the default parameters. -/
theorem stepRunsTheDecodedLine : Obligations.StepRunsTheDecodedLine := fun _ _ _ hr h0 hL ht =>
  ⟨fun _ => stepWith_of_exec hr (fetch_line h0 hL) ht, stepWith_of_exec hr (fetch_line h0 hL) ht⟩

/-- Settles O19, by the inversion of `retire`. -/
theorem retireCountsAndTestsTheBudget : Obligations.RetireCountsAndTestsTheBudget := fun p _ line t =>
  ⟨fun hc => retire_of_not_counts hc p line t, fun hc hb => retire_below_budget hc hb line,
    fun hc hb => retire_at_budget hc hb line⟩

/-- Settles O21: at or beyond the end the fetch finds no line. -/
theorem stepPastTheEndHaltsNormally : Obligations.StepPastTheEndHaltsNormally := fun _ _ hr h =>
  stepWith_pastEnd hr (fetch_pastEnd h)

/-- Settles O22: below 0 the fetch finds no line. -/
theorem stepBelowZeroRaisesTheFetchFault : Obligations.StepBelowZeroRaisesTheFetchFault := fun _ _ hr h =>
  stepWith_beforeStart hr (fetch_beforeStart h)

/-- Settles O25: neither a step nor a run begins outside RUNNING. -/
theorem outsideRunningNothingChanges : Obligations.OutsideRunningNothingChanges := fun _ _ h =>
  ⟨stepWith_not_running h, runSteps_not_running h⟩

/-- Settles O28: `retire` at the budget, after an `exec` that kept the counter. -/
theorem budgetHaltKeepsTheInstruction : Obligations.BudgetHaltKeepsTheInstruction := by
  intro p s u L hr hf hc hb hu
  have hcnt := (exec_cases hu).cnt
  rw [stepWith_of_exec hr hf hu, retire_at_budget hc (by rwa [hcnt]), hcnt]
  rfl

/-- Settles O29: `exec` answers on every constructor, and each answer of the fetch leads to a next state. -/
theorem nothingFaultsOrIsRefused : Obligations.NothingFaultsOrIsRefused := ⟨exec_answers, stepWith_answers⟩

/-- Settles O30: the three ways out of RUNNING, one for each answer of the fetch. -/
theorem runStateTransitions : Obligations.RunStateTransitions := by
  intro p s t hr h
  rcases stepWith_cases h with ⟨hnr, -⟩ | ⟨-, hend, rfl⟩ | ⟨-, hneg, rfl⟩ | ⟨L, u, -, hf, h0, hlt, hu, rfl⟩
  · exact absurd hr hnr
  · have hrs : s.loopExit.rs = .haltedNormal := rfl
    simp [hrs, fetch_pastEnd hend, hend, show ¬ s.pc < 0 by omega]
  · have hrs : s.fetchFault.rs = .haltedFault := rfl
    simp [hrs, fetch_beforeStart hneg, hneg, show ¬ (s.P.length : Int) ≤ s.pc by omega]
  · have hline : (∃ K, fetch s = .line K ∧ (decode K = .invalid ∨ (counts (decode K) = true ∧ p.budget ≤ s.cnt + 1))) ↔
        decode L = .invalid ∨ (counts (decode L) = true ∧ p.budget ≤ s.cnt + 1) := by
      simp [hf]
    have hend : ¬ (s.P.length : Int) ≤ s.pc := by omega
    have hneg : ¬ s.pc < 0 := by omega
    rw [hline, rs_after_line hr hu]
    by_cases hout : decode L = .invalid ∨ (counts (decode L) = true ∧ p.budget ≤ s.cnt + 1)
    · simp [hout, hend, hneg]
    · simp [hout, hend, hneg]

/-- Settles O31: each step keeps the store, so a run does, and the fetch reads the store and the pc alone. -/
theorem programStoreIsReadOnly : Obligations.ProgramStoreIsReadOnly :=
  ⟨fun _ _ _ h => (exec_cases h).store,
    fun _ _ _ _ h => ⟨store_of_runSteps h, fetch_congr (store_of_runSteps h)⟩,
    fun _ _ _ _ h => eq_of_command_changeText h⟩

/-- Settles O33: the events of `exec`, then TOO_MANY from `retire`. -/
theorem eventsOfOneStepComeInOrder : Obligations.EventsOfOneStepComeInOrder := by
  intro p s t L hr hf hc h
  obtain ⟨u, hu, rfl⟩ := exec_of_stepWith hr hf h
  obtain ⟨w, hT, hlen, hwarn⟩ := exec_events hc hu
  refine ⟨w, ?_, hlen, hwarn⟩
  rw [retire_T, hT, (exec_cases hu).cnt]
  simp only [hc, true_and]
  rfl

end Sys2Proof.Proofs

/-! The invariant of the machine at rest (10_state.md R33, R34, R36, R41, 20_memory.md R47, 60_exceptions.md R185): every step
keeps it, every command keeps it, and what it says of a run that has ended (70_reset_and_hazards.md R210). -/

namespace Sys2Proof.Proofs

open Sys2Proof Sys2Proof.Machine

/-! ## What each run state asks -/

theorem runStateFacts_running {p : Params} {s : State} (hr : s.rs = .running) :
    runStateFacts p s ↔ -1 ≤ s.pc ∧ s.cnt < p.budget ∧ s.P ≠ [] ∧ ∀ e ∈ s.T, isErrorEvent e = false := by
  rw [runStateFacts, hr]

theorem runStateFacts_haltedNormal {p : Params} {s : State} (hr : s.rs = .haltedNormal) :
    runStateFacts p s ↔ (s.P.length : Int) ≤ s.pc ∧ s.cnt < p.budget ∧ ∀ e ∈ s.T, isErrorEvent e = false := by
  rw [runStateFacts, hr]

theorem cause_of_running {s : State} (h : statusAgrees s = true) (hr : s.rs = .running) : s.cause = .none := by
  unfold statusAgrees at h
  rw [hr] at h
  split at h <;> simp_all

theorem cause_of_haltedNormal {s : State} (h : statusAgrees s = true) (hr : s.rs = .haltedNormal) : s.cause = .normal := by
  unfold statusAgrees at h
  rw [hr] at h
  split at h <;> simp_all

/-! ## The part of the invariant that grows with the trace -/

/-- A state with the same store whose trace has grown by events of lines of the program keeps the invariant, when its status
fields agree and its run state's own facts hold. -/
theorem inv_of_trace_append {p : Params} {s t : State} {es : List Event} (h : Inv p s) (hP : t.P = s.P) (hT : t.T = s.T ++ es)
    (hes : ∀ e ∈ es, ∃ i, eventLine? e = some i ∧ i < s.P.length) (hstatus : statusAgrees t = true)
    (hfacts : runStateFacts p t) : Inv p t where
  status := hstatus
  lines := hP ▸ h.lines
  banner := by rw [hT, List.head?_append, h.banner]; rfl
  events := by
    have hne : s.T ≠ [] := by intro hnil; have := h.banner; simp [hnil] at this
    unfold eventsInProgram
    rw [hT, List.tail_append_of_ne_nil hne, hP]
    exact List.forall_mem_append.2 ⟨h.events, hes⟩
  facts := hfacts

/-! ## The four ends of a step -/

theorem inv_loopExit {p : Params} {s : State} (h : Inv p s) (hr : s.rs = .running) (hend : (s.P.length : Int) ≤ s.pc) :
    Inv p s.loopExit := by
  obtain ⟨-, hcnt, -, herr⟩ := (runStateFacts_running hr).1 h.facts
  exact inv_of_trace_append (es := []) h rfl (by simp [State.loopExit]) (by simp) rfl ⟨hend, hcnt, herr⟩

theorem inv_fetchFault {p : Params} {s : State} (h : Inv p s) (hr : s.rs = .running) (hneg : s.pc < 0) :
    Inv p s.fetchFault := by
  obtain ⟨hpc, hcnt, -, herr⟩ := (runStateFacts_running hr).1 h.facts
  exact inv_of_trace_append (es := []) h rfl (by simp [State.fetchFault]) (by simp) rfl
    ⟨le_antisymm (Int.lt_add_one_iff.1 hneg) hpc, hcnt, herr⟩

theorem inv_parseFailure {p : Params} {s : State} (h : Inv p s) (hr : s.rs = .running) (h0 : 0 ≤ s.pc)
    (hlt : s.pc < s.P.length) : Inv p (s.parseFailure (lineIndex s)) := by
  obtain ⟨-, hcnt, -, herr⟩ := (runStateFacts_running hr).1 h.facts
  have hline : lineIndex s < s.P.length := by unfold lineIndex; omega
  exact inv_of_trace_append h rfl rfl (by simpa [eventLine?] using hline) rfl
    ⟨s.T, _, rfl, herr, .inl ⟨rfl, hcnt, h0, hlt, rfl⟩⟩

/-- A line that ran without a parse failure keeps the invariant before it is counted. -/
theorem inv_exec {p : Params} {i : Instr} {s u : State} (h : Inv p s) (hr : s.rs = .running) (h0 : 0 ≤ s.pc)
    (hlt : s.pc < s.P.length) (hu : exec i s = .next u) (hi : i ≠ .invalid) : Inv p u ∧ u.rs = .running := by
  obtain ⟨-, hcnt, hP, herr⟩ := (runStateFacts_running hr).1 h.facts
  obtain ⟨hucnt, hstore, ⟨es, hT, hline, hnoerr⟩, hcontrol⟩ := exec_cases hu
  rcases hcontrol with ⟨hinv, -⟩ | ⟨-, hurs, hucause, hupc⟩
  · exact absurd hinv hi
  have hrs : u.rs = .running := hurs.trans hr
  have hpc : -1 ≤ u.pc := by
    rcases hupc with hupc | ⟨k, hupc⟩
    · omega
    · rw [hupc, targetPc]; omega
  have hstatus : statusAgrees u = true := by
    rw [statusAgrees, hrs, hucause, cause_of_running h.status hr]
  have hfacts : runStateFacts p u :=
    (runStateFacts_running hrs).2 ⟨hpc, by rwa [hucnt], by rwa [hstore], hT ▸ List.forall_mem_append.2 ⟨herr, hnoerr hi⟩⟩
  exact ⟨inv_of_trace_append h hstore hT (fun e he => ⟨_, hline e he, by unfold lineIndex; omega⟩) hstatus hfacts, hrs⟩

theorem inv_setCnt {p : Params} {s : State} {n : Nat} (h : Inv p s) (hr : s.rs = .running) (hn : n < p.budget) :
    Inv p (s.setCnt n) := by
  obtain ⟨hpc, -, hP, herr⟩ := (runStateFacts_running hr).1 h.facts
  exact inv_of_trace_append (es := []) h rfl (by simp) (by simp) h.status
    ((runStateFacts_running (s := s.setCnt n) hr).2 ⟨hpc, hn, hP, herr⟩)

/-- The budget halt: the count has reached BUDGET exactly, because it was below it and grew by 1. -/
theorem inv_budgetExceeded {p : Params} {s : State} {line : Nat} (h : Inv p s) (hr : s.rs = .running)
    (hb : p.budget ≤ s.cnt + 1) (hline : line < s.P.length) : Inv p ((s.setCnt (s.cnt + 1)).budgetExceeded line) := by
  obtain ⟨hpc, hcnt, -, herr⟩ := (runStateFacts_running hr).1 h.facts
  exact inv_of_trace_append h rfl rfl (by simpa [eventLine?] using hline) rfl
    ⟨s.T, _, rfl, herr, .inr ⟨rfl, le_antisymm hcnt hb, hpc, line, rfl⟩⟩

theorem inv_retire {p : Params} {i : Instr} {s : State} {line : Nat} (h : Inv p s) (hr : s.rs = .running)
    (hline : line < s.P.length) : Inv p (retire p i line s) := by
  rcases retire_cases p i line s with ⟨-, e⟩ | ⟨-, hb, e⟩ | ⟨-, hb, e⟩
  · rwa [e]
  · rw [e]; exact inv_setCnt h hr hb
  · rw [e]; exact inv_budgetExceeded h hr hb hline

theorem inv_stepWith {p : Params} {s t : State} (h : Inv p s) (hstep : stepWith p s = .next t) : Inv p t := by
  rcases stepWith_cases hstep with ⟨-, rfl⟩ | ⟨hr, hend, rfl⟩ | ⟨hr, hneg, rfl⟩ | ⟨L, u, hr, -, h0, hlt, hu, rfl⟩
  · exact h
  · exact inv_loopExit h hr hend
  · exact inv_fetchFault h hr hneg
  · by_cases hi : decode L = .invalid
    · rw [hi] at hu ⊢
      rw [retire_of_not_counts counts_invalid, ← Host.Outcome.next.inj hu]
      exact inv_parseFailure h hr h0 hlt
    · obtain ⟨hinv, hrs⟩ := inv_exec h hr h0 hlt hu hi
      exact inv_retire hinv hrs (by rw [(exec_cases hu).store, lineIndex]; omega)

/-! ## Reset and the commands -/

theorem inv_reset (p : Params) : Inv p State.reset where
  status := rfl
  lines := rfl
  banner := rfl
  events := by simp [eventsInProgram]
  facts := rfl

theorem no_error_banner : ∀ e ∈ [Event.banner], isErrorEvent e = false := by simp [isErrorEvent]

theorem store_startRun (p : Params) (S : Text) : (startRun p S).P = loadProgram p S := by
  by_cases hS : trimText p S = []
  · rw [startRun_empty hS, halt_P, reset_P, loadProgram, if_pos hS]
  · rw [startRun_lines hS, loadProgram, if_neg hS]

theorem inv_startRun (p : Params) (S : Text) : Inv p (startRun p S) := by
  have hbudget : 0 < p.budget := p.budget_pos
  have hlines := storeWf_startRun p S
  by_cases hS : trimText p S = []
  · rw [startRun_empty hS] at hlines ⊢
    exact ⟨rfl, hlines, rfl, by simp [eventsInProgram], ⟨le_refl _, hbudget, no_error_banner⟩⟩
  · rw [startRun_lines hS] at hlines ⊢
    exact ⟨rfl, hlines, rfl, by simp [eventsInProgram],
      ⟨(by decide : (-1 : Int) ≤ 0), hbudget, splitLF_ne_nil _, no_error_banner⟩⟩

theorem not_running_of_command {p : Params} {c : Command} {s t : State} (h : command p c s = .next t) : s.rs ≠ .running := by
  intro hr
  unfold command at h
  rw [if_pos hr] at h
  cases c <;> cases h

/-- An admitted command resets, starts the run of some text, or leaves the block as it is. -/
theorem command_cases {p : Params} {c : Command} {s t : State} (h : command p c s = .next t) :
    t = State.reset ∨ (∃ S, t = startRun p S) ∨ t = s := by
  have hs := not_running_of_command h
  unfold command at h
  rw [if_neg hs] at h
  cases c with
  | reset => exact .inl (Host.Outcome.next.inj h).symm
  | run S => exact .inr (.inl ⟨S, (Host.Outcome.next.inj h).symm⟩)
  | runBytes bytes =>
    simp only at h
    split at h
    · rename_i S _; exact .inr (.inl ⟨S, (Host.Outcome.next.inj h).symm⟩)
    · cases h
  | changeText S => exact .inr (.inr (Host.Outcome.next.inj h).symm)

theorem eq_startRun_of_command {p : Params} {S : Text} {s t : State} (h : command p (.run S) s = .next t) : t = startRun p S :=
  Host.Outcome.next.inj (h.symm.trans (command_run (not_running_of_command h)))

/-! ## A whole run -/

/-- A run that was admitted answers what the steps from RUN's own state answer. -/
theorem runSteps_of_runCall {p : Params} {S : Text} {s u : State} (h : runCall p S s = .next u) :
    runSteps p (stepBound p (startRun p S)) (startRun p S) = .next u := by
  by_cases hr : s.rs = .running
  · simp [runCall, command, hr] at h
  · rwa [runCall_eq hr] at h

theorem inv_runSteps {p : Params} {k : Nat} {s t : State} (hs : Inv p s) (h : runSteps p k s = .next t) : Inv p t :=
  runSteps_keeps (fun _ _ hstep hinv => inv_stepWith hinv hstep) h hs

/-! ## The obligations -/

/-- Settles O45, by the ends that a step can have: the loop exit, the fetch fault, a parse failure, or a line that ran and was
retired. -/
theorem everyStepKeepsTheInvariant : Obligations.EveryStepKeepsTheInvariant := fun _ _ _ h hstep => inv_stepWith h hstep

/-- Settles O46. -/
theorem resetMeetsTheInvariant : Obligations.ResetMeetsTheInvariant := inv_reset

/-- Settles O47: a command leads to the reset state, to the start of a run, or nowhere. -/
theorem commandsKeepTheInvariant : Obligations.CommandsKeepTheInvariant := by
  refine ⟨fun p c s t hs h => ?kept, fun p s t h => ?reset, fun p S s t h => ?run⟩
  case kept =>
    rcases command_cases h with rfl | ⟨S, rfl⟩ | rfl
    · exact inv_reset p
    · exact inv_startRun p S
    · exact hs
  case reset => rw [eq_reset_of_command h]; exact inv_reset p
  case run => rw [eq_startRun_of_command h]; exact inv_startRun p S

/-- Settles O44: the invariant holds where the run ends, and there it says all but which program ran. -/
theorem normalEndReportsNoError : Obligations.NormalEndReportsNoError := by
  intro p S s u h hrs
  have hrun := runSteps_of_runCall h
  have hinv := inv_runSteps (inv_startRun p S) hrun
  obtain ⟨hpc, hcnt, herr⟩ := (runStateFacts_haltedNormal hrs).1 hinv.facts
  exact ⟨cause_of_haltedNormal hinv.status hrs, hpc, hcnt, (store_of_runSteps hrun).trans (store_startRun p S), herr⟩

end Sys2Proof.Proofs

/-! Every run halts (40_sequencer.md R122, R123): a measure that each step inside a run lowers. -/

namespace Sys2Proof.Proofs

open Sys2Proof Sys2Proof.Machine

/-- A bound on the steps left in a run: n + 1 for each instruction the budget still allows, and the lines up to the end that
comments can still pass (40_sequencer.md R123). -/
def stepsLeft (p : Params) (s : State) : Nat := (p.budget - s.cnt) * (s.P.length + 1) + (s.P.length - s.pc).toNat

theorem stepsLeft_pos {p : Params} {s : State} (h : Inv p s) (hr : s.rs = .running) : 0 < stepsLeft p s := by
  obtain ⟨-, hcnt, -, -⟩ := (runStateFacts_running hr).1 h.facts
  have : 0 < (p.budget - s.cnt) * (s.P.length + 1) := Nat.mul_pos (Nat.sub_pos_of_lt hcnt) s.P.length.succ_pos
  unfold stepsLeft
  omega

/-- A counted instruction pays n + 1, and its jump gives back at most that, because the pc is at least -1 after it. -/
theorem stepsLeft_counted {p : Params} {s t : State} (hP : t.P = s.P) (hcnt : t.cnt = s.cnt + 1) (hb : s.cnt < p.budget)
    (hlt : s.pc < s.P.length) (hpc : -1 ≤ t.pc) : stepsLeft p t < stepsLeft p s := by
  obtain ⟨b, hb⟩ : ∃ b, p.budget - s.cnt = b + 1 := ⟨p.budget - s.cnt - 1, by omega⟩
  have hleft : p.budget - t.cnt = b := by omega
  rw [stepsLeft, stepsLeft, hP, hleft, hb, Nat.succ_mul]
  omega

theorem stepsLeft_comment {p : Params} {s t : State} (hP : t.P = s.P) (hcnt : t.cnt = s.cnt) (hlt : s.pc < s.P.length)
    (hpc : t.pc = s.pc + 1) : stepsLeft p t < stepsLeft p s := by
  rw [stepsLeft, stepsLeft, hP, hcnt, hpc]
  omega

/-- Every step that stays RUNNING lowers the measure: it ran a comment, or an instruction that was counted. -/
theorem stepsLeft_stepWith {p : Params} {s t : State} (h : Inv p s) (hr : s.rs = .running) (hstep : stepWith p s = .next t)
    (ht : t.rs = .running) : stepsLeft p t < stepsLeft p s := by
  obtain ⟨-, hb, -, -⟩ := (runStateFacts_running hr).1 h.facts
  obtain ⟨hpc, -, -, -⟩ := (runStateFacts_running ht).1 (inv_stepWith h hstep).facts
  rcases stepWith_cases hstep with ⟨hnr, -⟩ | ⟨-, -, rfl⟩ | ⟨-, -, rfl⟩ | ⟨L, u, -, -, -, hlt, hu, rfl⟩
  · exact absurd hr hnr
  · cases ht
  · cases ht
  · have hP : (retire p (decode L) (lineIndex s) u).P = s.P := by rw [retire_P, (exec_cases hu).store]
    have hcnt := retire_cnt p (decode L) (lineIndex s) u
    rw [(exec_cases hu).cnt] at hcnt
    by_cases hc : counts (decode L) = true
    · rw [if_pos hc] at hcnt
      exact stepsLeft_counted hP hcnt hb hlt hpc
    · rw [if_neg hc] at hcnt
      have hi : decode L ≠ .invalid := by
        intro hi
        rw [rs_after_line hr hu, if_pos (.inl hi)] at ht
        cases ht
      have hcomment : decode L = .comment := by
        by_contra hne
        exact hc ((counts_iff _).2 ⟨hne, hi⟩)
      rw [hcomment] at hu
      exact stepsLeft_comment hP hcnt hlt (by rw [retire_pc, ← Host.Outcome.next.inj hu]; rfl)

/-- As many steps as the measure allows end outside RUNNING. -/
theorem runSteps_halts {p : Params} {k : Nat} {s : State} (h : Inv p s) (hk : stepsLeft p s ≤ k) :
    ∃ u, runSteps p k s = .next u ∧ u.rs ≠ .running := by
  induction k generalizing s with
  | zero =>
    refine ⟨s, rfl, fun hr => ?_⟩
    have := stepsLeft_pos h hr
    omega
  | succ k ih =>
    by_cases hr : s.rs = .running
    · obtain ⟨t, ht⟩ := stepWith_answers p s
      rw [runSteps_succ hr ht]
      by_cases htr : t.rs = .running
      · have := stepsLeft_stepWith h hr ht htr
        exact ih (inv_stepWith h ht) (by omega)
      · exact ⟨t, runSteps_not_running htr k, htr⟩
    · exact ⟨s, runSteps_not_running hr _, hr⟩

/-- RUN leaves the counter and the pc at 0, so the measure is within the spec's bound. -/
theorem stepsLeft_startRun (p : Params) (S : Text) : stepsLeft p (startRun p S) ≤ stepBound p (startRun p S) := by
  have hzero : (startRun p S).cnt = 0 ∧ (startRun p S).pc = 0 := by
    by_cases hS : trimText p S = []
    · rw [startRun_empty hS]; exact ⟨rfl, rfl⟩
    · rw [startRun_lines hS]; exact ⟨rfl, rfl⟩
  rw [stepsLeft, stepBound, hzero.1, hzero.2, Nat.sub_zero, Nat.succ_mul]
  omega

/-- Settles O43: the measure of RUN's own state is within the bound, and that many steps end outside RUNNING. -/
theorem everyRunHalts : Obligations.EveryRunHalts := by
  intro p S s hs
  obtain ⟨u, hrun, hu⟩ := runSteps_halts (inv_startRun p S) (stepsLeft_startRun p S)
  exact ⟨_, u, command_run hs, hrun, hu, (runCall_eq hs).trans hrun⟩

end Sys2Proof.Proofs

/-! The obligations about reset, RUN and the host's reads: 10_state.md R43 and R44, section 6 (the status register) and R42 (the
trace as text), 40_sequencer.md R101, R102 and R129. -/

namespace Sys2Proof.Proofs

open Sys2Proof Sys2Proof.Machine

theorem command_reset {p : Params} {s : State} (h : s.rs ≠ .running) : command p .reset s = .next State.reset := by
  unfold command; rw [if_neg h]

/-! ## The status register -/

theorem rsCode_le (r : RunState) : r.code ≤ 4 := by cases r <;> decide

theorem causeCode_le (c : HaltCause) : c.code ≤ 4 := by cases c <;> decide

theorem rsCode_injective {r q : RunState} (h : r.code = q.code) : r = q := by
  cases r <;> cases q <;> cases h <;> rfl

theorem causeCode_injective {c b : HaltCause} (h : c.code = b.code) : c = b := by
  cases c <;> cases b <;> cases h <;> rfl

theorem statusWord_low (s : State) : ((statusWord s).extractLsb' 0 3).toNat = s.rs.code := by
  have := rsCode_le s.rs
  rw [statusWord, BitVec.extractLsb'_append_eq_right, BitVec.toNat_ofNat]
  omega

theorem statusWord_high (s : State) : ((statusWord s).extractLsb' 3 3).toNat = s.cause.code := by
  have := causeCode_le s.cause
  rw [statusWord, BitVec.extractLsb'_append_eq_left, BitVec.toNat_ofNat]
  omega

theorem statusWord_toNat (s : State) : (statusWord s).toNat = s.rs.code + 8 * s.cause.code := by
  have hlow := statusWord_low s
  have hhigh := statusWord_high s
  have hlt := (statusWord s).isLt
  rw [BitVec.extractLsb'_toNat, Nat.shiftRight_eq_div_pow] at hlow hhigh
  omega

/-! ## The obligations -/

/-- Settles O35. -/
theorem resetGivesEveryResetValue : Obligations.ResetGivesEveryResetValue := fun _ _ hs =>
  ⟨State.reset, command_reset hs, rfl, reset_x_get, rfl, rfl, rfl, rfl, rfl, rfl, rfl⟩

/-- Settles O37: RUN is the reset state with the lines of the text and RUNNING in place, and a split has at least one line. -/
theorem runLoadsTheTrimmedText : Obligations.RunLoadsTheTrimmedText := by
  intro p S s hs hS
  refine ⟨startRun p S, command_run hs, ?_⟩
  rw [startRun_lines hS]
  exact ⟨rfl, splitLF_ne_nil _, rfl, rfl, rfl, rfl, rfl, rfl, reset_x_get⟩

/-- Settles O39. -/
theorem commandsAreRefusedWhileRunning : Obligations.CommandsAreRefusedWhileRunning := fun _ _ hs =>
  ⟨if_pos hs, fun _ => if_pos hs, fun _ => if_pos hs, fun _ => if_pos hs⟩

/-- Settles O41. -/
theorem readsAreExactOutsideRunning : Obligations.ReadsAreExactOutsideRunning := by
  intro n s hs
  have hread : hostRead n s = ⟨s.x, s.zx, s.T⟩ := if_neg hs
  rw [hread]
  exact ⟨rfl, rfl, rfl⟩

/-- Settles O42: the two fields can be read back from the word, and each code belongs to one name. -/
theorem statusRegisterLayout : Obligations.StatusRegisterLayout := by
  refine ⟨⟨rfl, rfl, rfl, rfl, rfl⟩, ⟨rfl, rfl, rfl, rfl, rfl⟩, fun s => ⟨statusWord_toNat s, rsCode_le _, causeCode_le _,
    statusWord_low s, statusWord_high s, fun t h => ⟨rsCode_injective ?rs, causeCode_injective ?cause⟩⟩⟩
  case rs => rw [← statusWord_low t, ← statusWord_low s]; exact congrArg (fun w => (w.extractLsb' 0 3).toNat) h
  case cause => rw [← statusWord_high t, ← statusWord_high s]; exact congrArg (fun w => (w.extractLsb' 3 3).toNat) h

/-- Settles O56, by evaluation of the six literal entries. -/
theorem entriesRenderAsWritten : Obligations.EntriesRenderAsWritten := by
  unfold Obligations.EntriesRenderAsWritten
  decide

end Sys2Proof.Proofs

/-! The obligations of 20_memory.md about the loader: the trim (R48), the split at line feeds (R50) and the reading of UTF-8
(R65). -/

namespace Sys2Proof.Proofs

open Sys2Proof Sys2Proof.Machine

/-! ## The trim -/

theorem inTrimSet_iff (p : Params) (c : Char) : inTrimSet p c = true ↔ c ∈ p.trimSet := List.elem_iff

theorem trimText_eq_rdropWhile (p : Params) (S : Text) :
    trimText p S = (S.dropWhile (inTrimSet p)).rdropWhile (inTrimSet p) := rfl

theorem not_trimmed_of_head?_dropWhile {p : Params} {S : Text} {c : Char}
    (h : (S.dropWhile (inTrimSet p)).head? = some c) : c ∉ p.trimSet := by
  have hnot := List.head?_dropWhile_not (inTrimSet p) S
  rw [h] at hnot
  exact fun hc => absurd ((inTrimSet_iff p c).2 hc) (Bool.eq_false_iff.1 hnot)

/-- Settles O54: what is cut off in front is the leading run of TRIM_SET characters, and what is cut off behind the trailing one
of the rest. -/
theorem trimRemovesExactlyTheEnds : Obligations.TrimRemovesExactlyTheEnds := by
  intro p S
  refine ⟨S.takeWhile (inTrimSet p), (S.dropWhile (inTrimSet p)).rtakeWhile (inTrimSet p), ?parts,
    fun c hc => (inTrimSet_iff p c).1 (List.mem_takeWhile_imp hc), fun c hc => (inTrimSet_iff p c).1 (List.mem_rtakeWhile_imp hc),
    fun c hc => ?head, fun c hc => ?last⟩
  case parts =>
    rw [List.append_assoc, trimText_eq_rdropWhile, List.rdropWhile_append_rtakeWhile, List.takeWhile_append_dropWhile]
  case head =>
    obtain ⟨b, hb⟩ := List.rdropWhile_prefix (inTrimSet p) (l := S.dropWhile (inTrimSet p))
    refine not_trimmed_of_head?_dropWhile (S := S) ?_
    rw [← hb, ← trimText_eq_rdropWhile, List.head?_append, hc]
    rfl
  case last =>
    rw [trimText, List.getLast?_reverse] at hc
    exact not_trimmed_of_head?_dropWhile hc

/-! ## The split at line feeds -/

theorem splitLF_lineFeed (S : Text) : splitLF (lineFeed :: S) = [] :: splitLF S := if_pos rfl

/-- A character that is no line feed goes to the first line of the rest. -/
theorem splitLF_cons {c : Char} {S : Text} {L : Line} {P : List Line} (hc : c ≠ lineFeed) (hS : splitLF S = L :: P) :
    splitLF (c :: S) = (c :: L) :: P := by
  rw [splitLF, if_neg hc, hS]

theorem intercalate_cons_cons_line (c : Char) (L : Line) (P : List Line) :
    [lineFeed].intercalate ((c :: L) :: P) = c :: [lineFeed].intercalate (L :: P) := by
  cases P with
  | nil => rw [List.intercalate_singleton, List.intercalate_singleton]
  | cons K P => rw [List.intercalate_cons_cons, List.intercalate_cons_cons]; rfl

theorem intercalate_splitLF (S : Text) : [lineFeed].intercalate (splitLF S) = S := by
  induction S with
  | nil => exact List.intercalate_singleton
  | cons c S ih =>
    by_cases hc : c = lineFeed
    · rw [hc, splitLF_lineFeed, List.intercalate_cons_of_ne_nil (splitLF_ne_nil S), ih]
      rfl
    · obtain ⟨L, P, hS⟩ := List.exists_cons_of_ne_nil (splitLF_ne_nil S)
      rw [splitLF_cons hc hS, intercalate_cons_cons_line, ← hS, ih]

theorem splitLF_length (S : Text) : (splitLF S).length = S.count lineFeed + 1 := by
  induction S with
  | nil => rfl
  | cons c S ih =>
    by_cases hc : c = lineFeed
    · rw [hc, splitLF_lineFeed, List.length_cons, ih, List.count_cons_self]
    · obtain ⟨L, P, hS⟩ := List.exists_cons_of_ne_nil (splitLF_ne_nil S)
      rw [List.count_cons_of_ne hc, ← ih, splitLF_cons hc hS, hS]
      rfl

/-- Settles O55, by the recursion of the split over the text. -/
theorem splitKeepsTheText : Obligations.SplitKeepsTheText := fun S =>
  ⟨intercalate_splitLF S, (storeWf_iff _).1 (storeWf_splitLF S), splitLF_length S⟩

/-! ## The bytes of one character -/

/-- The continuation byte that carries the six low bits of `k`. -/
def continuationByte (k : Nat) : Byte := BitVec.ofNat 8 (0x80 + k % 64)

theorem utf8OfChar_one {c : Char} (h : c.toNat < 0x80) : utf8OfChar c = [BitVec.ofNat 8 c.toNat] := if_pos h

theorem utf8OfChar_two {c : Char} (h : 0x80 ≤ c.toNat) (h' : c.toNat < 0x800) :
    utf8OfChar c = [BitVec.ofNat 8 (0xC0 + c.toNat / 64), continuationByte c.toNat] := by
  unfold utf8OfChar
  rw [if_neg (by omega), if_pos h']
  rfl

theorem utf8OfChar_three {c : Char} (h : 0x800 ≤ c.toNat) (h' : c.toNat < 0x10000) :
    utf8OfChar c =
      [BitVec.ofNat 8 (0xE0 + c.toNat / 4096), continuationByte (c.toNat / 64), continuationByte c.toNat] := by
  unfold utf8OfChar
  rw [if_neg (by omega), if_neg (by omega), if_pos h']
  rfl

theorem utf8OfChar_four {c : Char} (h : 0x10000 ≤ c.toNat) :
    utf8OfChar c =
      [BitVec.ofNat 8 (0xF0 + c.toNat / 262144), continuationByte (c.toNat / 4096), continuationByte (c.toNat / 64),
        continuationByte c.toNat] := by
  unfold utf8OfChar
  rw [if_neg (by omega), if_neg (by omega), if_neg (by omega)]
  rfl

theorem byte_toNat {n : Nat} (h : n < 256) : (BitVec.ofNat 8 n).toNat = n := by
  rw [BitVec.toNat_ofNat, Nat.mod_eq_of_lt h]

theorem ofNat_eq_byte {n : Nat} {b : Byte} (h : n = b.toNat) : BitVec.ofNat 8 n = b :=
  BitVec.eq_of_toNat_eq (by rw [h, byte_toNat b.isLt])

theorem continuation_continuationByte (k : Nat) : continuation (continuationByte k) = some (k % 64) := by
  have hbyte : (continuationByte k).toNat = 0x80 + k % 64 := byte_toNat (by omega)
  rw [continuation, if_pos (by omega), hbyte, Nat.add_sub_cancel_left]

theorem continuationByte_eq {b : Byte} {k c : Nat} (h : continuation b = some c) (hk : k % 64 = c) : continuationByte k = b :=
  ofNat_eq_byte (by rw [hk, (continuation_some h).1])

theorem char_toNat_lt (c : Char) : c.toNat < 0x110000 := by
  have hv := c.valid
  simp only [UInt32.isValidChar, Nat.isValidChar] at hv
  simp only [Char.toNat]
  omega

/-! ## The four forms that the reader accepts -/

theorem decodeUtf8_one {b0 : Byte} (h : b0.toNat < 0x80) (rest : List Byte) :
    decodeUtf8 (b0 :: rest) = (decodeUtf8 rest).map (Char.ofNat b0.toNat :: ·) := by
  rw [decodeUtf8.eq_def]
  exact if_pos h

theorem decodeUtf8_two {b0 b1 : Byte} {c1 : Nat} (h : 0xC0 ≤ b0.toNat) (h' : b0.toNat < 0xE0) (h1 : continuation b1 = some c1)
    (rest : List Byte) :
    decodeUtf8 (b0 :: b1 :: rest) =
      (scalar 0x80 ((b0.toNat - 0xC0) * 64 + c1)).bind fun c => (decodeUtf8 rest).map (c :: ·) := by
  rw [decodeUtf8.eq_def]
  simp only [h1]
  rw [if_neg (by omega), if_neg (by omega), if_pos h']

theorem decodeUtf8_three {b0 b1 b2 : Byte} {c1 c2 : Nat} (h : 0xE0 ≤ b0.toNat) (h' : b0.toNat < 0xF0)
    (h1 : continuation b1 = some c1) (h2 : continuation b2 = some c2) (rest : List Byte) :
    decodeUtf8 (b0 :: b1 :: b2 :: rest) =
      (scalar 0x800 (((b0.toNat - 0xE0) * 64 + c1) * 64 + c2)).bind fun c => (decodeUtf8 rest).map (c :: ·) := by
  rw [decodeUtf8.eq_def]
  simp only [h1, h2]
  rw [if_neg (by omega), if_neg (by omega), if_neg (by omega), if_pos h']

theorem decodeUtf8_four {b0 b1 b2 b3 : Byte} {c1 c2 c3 : Nat} (h : 0xF0 ≤ b0.toNat) (h' : b0.toNat < 0xF8)
    (h1 : continuation b1 = some c1) (h2 : continuation b2 = some c2) (h3 : continuation b3 = some c3) (rest : List Byte) :
    decodeUtf8 (b0 :: b1 :: b2 :: b3 :: rest) =
      (scalar 0x10000 ((((b0.toNat - 0xF0) * 64 + c1) * 64 + c2) * 64 + c3)).bind fun c => (decodeUtf8 rest).map (c :: ·) := by
  rw [decodeUtf8.eq_def]
  simp only [h1, h2, h3]
  rw [if_neg (by omega), if_neg (by omega), if_neg (by omega), if_neg (by omega), if_pos h']

/-! ## The reader reads the writer back -/

/-- A code point computed from bytes that is the character's own is read as the character. -/
theorem scalar_bind {c : Char} {least n : Nat} (hn : n = c.toNat) (h : least ≤ c.toNat) (o : Option Text) :
    ((scalar least n).bind fun a => o.map (a :: ·)) = o.map (c :: ·) := by
  rw [hn, scalar_of_char c h, Option.bind_some]

theorem decodeUtf8_utf8OfChar_append (c : Char) (rest : List Byte) :
    decodeUtf8 (utf8OfChar c ++ rest) = (decodeUtf8 rest).map (c :: ·) := by
  have hmax := char_toNat_lt c
  have low := continuation_continuationByte
  by_cases h1 : c.toNat < 0x80
  · have hlead := byte_toNat (n := c.toNat) (by omega)
    rw [utf8OfChar_one h1, List.singleton_append, decodeUtf8_one (by omega), hlead, Char.ofNat_toNat]
  by_cases h2 : c.toNat < 0x800
  · have hlead := byte_toNat (n := 0xC0 + c.toNat / 64) (by omega)
    rw [utf8OfChar_two (by omega) h2]
    exact (decodeUtf8_two (by omega) (by omega) (low _) rest).trans (scalar_bind (by omega) (by omega) _)
  by_cases h3 : c.toNat < 0x10000
  · have hlead := byte_toNat (n := 0xE0 + c.toNat / 4096) (by omega)
    rw [utf8OfChar_three (by omega) h3]
    exact (decodeUtf8_three (by omega) (by omega) (low _) (low _) rest).trans (scalar_bind (by omega) (by omega) _)
  · have hlead := byte_toNat (n := 0xF0 + c.toNat / 262144) (by omega)
    rw [utf8OfChar_four (by omega)]
    exact (decodeUtf8_four (by omega) (by omega) (low _) (low _) (low _) rest).trans (scalar_bind (by omega) (by omega) _)

theorem encodeUtf8_cons (c : Char) (S : Text) : encodeUtf8 (c :: S) = utf8OfChar c ++ encodeUtf8 S := rfl

theorem decodeUtf8_encodeUtf8 (S : Text) : decodeUtf8 (encodeUtf8 S) = some S := by
  induction S with
  | nil => rfl
  | cons c S ih => rw [encodeUtf8_cons, decodeUtf8_utf8OfChar_append, ih, Option.map_some]

/-! ## The writer writes the read bytes again -/

theorem utf8OfChar_of_one {b0 : Byte} (h : b0.toNat < 0x80) : utf8OfChar (Char.ofNat b0.toNat) = [b0] := by
  have hcode : (Char.ofNat b0.toNat).toNat = b0.toNat := by
    rw [Char.toNat_ofNat, if_pos (.inl (by omega))]
  rw [utf8OfChar_one (by omega), ofNat_eq_byte hcode]

theorem utf8OfChar_of_two {b0 b1 : Byte} {c1 : Nat} {c : Char} (h : 0xC0 ≤ b0.toNat) (h' : b0.toNat < 0xE0)
    (h1 : continuation b1 = some c1) (hc : scalar 0x80 ((b0.toNat - 0xC0) * 64 + c1) = some c) : utf8OfChar c = [b0, b1] := by
  obtain ⟨hleast, hn⟩ := scalar_some hc
  obtain ⟨-, hc1⟩ := continuation_some h1
  rw [utf8OfChar_two (by omega) (by omega), ofNat_eq_byte (b := b0) (by omega), continuationByte_eq h1 (by omega)]

theorem utf8OfChar_of_three {b0 b1 b2 : Byte} {c1 c2 : Nat} {c : Char} (h : 0xE0 ≤ b0.toNat) (h' : b0.toNat < 0xF0)
    (h1 : continuation b1 = some c1) (h2 : continuation b2 = some c2)
    (hc : scalar 0x800 (((b0.toNat - 0xE0) * 64 + c1) * 64 + c2) = some c) : utf8OfChar c = [b0, b1, b2] := by
  obtain ⟨hleast, hn⟩ := scalar_some hc
  obtain ⟨-, hc1⟩ := continuation_some h1
  obtain ⟨-, hc2⟩ := continuation_some h2
  rw [utf8OfChar_three (by omega) (by omega), ofNat_eq_byte (b := b0) (by omega), continuationByte_eq h1 (by omega),
    continuationByte_eq h2 (by omega)]

theorem utf8OfChar_of_four {b0 b1 b2 b3 : Byte} {c1 c2 c3 : Nat} {c : Char} (h : 0xF0 ≤ b0.toNat)
    (h1 : continuation b1 = some c1) (h2 : continuation b2 = some c2) (h3 : continuation b3 = some c3)
    (hc : scalar 0x10000 ((((b0.toNat - 0xF0) * 64 + c1) * 64 + c2) * 64 + c3) = some c) :
    utf8OfChar c = [b0, b1, b2, b3] := by
  obtain ⟨hleast, hn⟩ := scalar_some hc
  obtain ⟨-, hc1⟩ := continuation_some h1
  obtain ⟨-, hc2⟩ := continuation_some h2
  obtain ⟨-, hc3⟩ := continuation_some h3
  rw [utf8OfChar_four (by omega), ofNat_eq_byte (b := b0) (by omega), continuationByte_eq h1 (by omega),
    continuationByte_eq h2 (by omega), continuationByte_eq h3 (by omega)]

/-- One read character: if its bytes are `bytes`, and the rest was read exactly, so was the whole. -/
theorem encodeUtf8_of_read {o : Option Char} {rest bytes : List Byte} {S : Text}
    (h : (o.bind fun c => (decodeUtf8 rest).map (c :: ·)) = some S) (hchar : ∀ c, o = some c → utf8OfChar c = bytes)
    (hrest : ∀ S', decodeUtf8 rest = some S' → encodeUtf8 S' = rest) : encodeUtf8 S = bytes ++ rest := by
  obtain ⟨c, hc, h⟩ := Option.bind_eq_some_iff.1 h
  obtain ⟨S', hS', rfl⟩ := Option.map_eq_some_iff.1 h
  rw [encodeUtf8_cons, hchar c hc, hrest S' hS']

theorem encodeUtf8_of_decodeUtf8 {b : List Byte} {S : Text} (h : decodeUtf8 b = some S) : encodeUtf8 S = b := by
  fun_induction decodeUtf8 b generalizing S
  case case1 => cases h; rfl
  case case2 b0 rest h0 ih =>
    exact encodeUtf8_of_read (o := some _) (bytes := [b0]) h (by rintro _ ⟨⟩; exact utf8OfChar_of_one h0) fun _ => ih
  case case6 b0 _ h0 b1 rest c1 h1 h2 ih =>
    exact encodeUtf8_of_read (bytes := [b0, b1]) h (fun _ => utf8OfChar_of_two (by omega) h2 h1) fun _ => ih
  case case9 b0 _ _ b1 c1 h1 h2 b2 rest c2 h3 h4 ih =>
    exact encodeUtf8_of_read (bytes := [b0, b1, b2]) h (fun _ => utf8OfChar_of_three (by omega) h4 h1 h3) fun _ => ih
  case case12 b0 _ _ b1 c1 h1 _ b2 c2 h2 h3 b3 rest c3 h4 h5 ih =>
    exact encodeUtf8_of_read (bytes := [b0, b1, b2, b3]) h (fun _ => utf8OfChar_of_four (by omega) h1 h2 h4) fun _ => ih
  -- the eight forms that the reader refuses
  all_goals cases h

/-! ## RUN from bytes -/

theorem command_runBytes_some {p : Params} {b : List Byte} {S : Text} {s : State} (hs : s.rs ≠ .running)
    (h : decodeUtf8 b = some S) : command p (.runBytes b) s = .next (startRun p S) := by
  unfold command
  simp only [if_neg hs, h]

theorem command_runBytes_none {p : Params} {b : List Byte} {s : State} (hs : s.rs ≠ .running) (h : decodeUtf8 b = none) :
    command p (.runBytes b) s = .refused .invalidUtf8 := by
  unfold command
  simp only [if_neg hs, h]

/-- Settles O40: the reader and the writer are inverse to each other, and RUN from bytes asks the reader alone. -/
theorem runFromBytesIsRunOfTheText : Obligations.RunFromBytesIsRunOfTheText := by
  refine ⟨decodeUtf8_encodeUtf8, fun b S => encodeUtf8_of_decodeUtf8, fun p S s hs => ?spelled, fun p b s hs h => ?notSpelled⟩
  case spelled => rw [command_runBytes_some hs (decodeUtf8_encodeUtf8 S), command_run hs]
  case notSpelled =>
    cases hb : decodeUtf8 b with
    | none => exact command_runBytes_none hs hb
    | some S => exact absurd (encodeUtf8_of_decodeUtf8 hb) (h S)

end Sys2Proof.Proofs

/-! The obligations about bounded realisations: the pc register (10_state.md R31, 00_scope.md R9), the two-update jump
(40_sequencer.md R115), and the programs that are refused (30_encoding.md R86). -/

namespace Sys2Proof.Proofs

open Sys2Proof Sys2Proof.Machine

/-! ## A pc that saturates -/

theorem saturatePc_eq_self {top : Int} {s : State} (h : s.pc ≤ top) : saturatePc top s = s := by
  rw [saturatePc, if_neg (by omega)]
  rfl

theorem saturatePc_saturatePc (top : Int) (s : State) : saturatePc top (saturatePc top s) = saturatePc top s :=
  saturatePc_eq_self (by rw [saturatePc_pc]; exact min_le_right ..)

/-- Saturation is not seen by a step: a pc that it changes is beyond the end, and there the block waits or leaves the loop
whatever the pc is. -/
theorem stepSaturating_saturatePc (p : Params) {top : Int} {s : State} (htop : (s.P.length : Int) ≤ top) :
    stepSaturating p top (saturatePc top s) = mapNext (saturatePc top) (stepWith p s) := by
  by_cases hpc : s.pc ≤ top
  · rw [saturatePc_eq_self hpc, stepSaturating]
  · have hsat : (saturatePc top s).pc = top := by rw [saturatePc_pc]; omega
    have hP : (saturatePc top s).P = s.P := rfl
    rw [stepSaturating]
    by_cases hr : s.rs = .running
    · have hexit : (saturatePc top s).loopExit = saturatePc top s.loopExit := rfl
      rw [stepWith_pastEnd (s := saturatePc top s) hr (fetch_pastEnd (by rw [hP, hsat]; exact htop)),
        stepWith_pastEnd hr (fetch_pastEnd (by omega)), mapNext_next, mapNext_next, hexit, saturatePc_saturatePc]
    · rw [stepWith_not_running (s := saturatePc top s) hr, stepWith_not_running hr, mapNext_next, mapNext_next,
        saturatePc_saturatePc]

/-! ## A pc register of `w` bits -/

theorem narrow_saturatePc (w : Nat) (s : State) : (saturatePc (pcTop w) s).narrow w = s.narrow w := by
  simp only [State.narrow, saturatePc_saturatePc]
  rfl

theorem representsPc_iff (w m : Nat) : representsPc w m = true ↔ 1 ≤ w ∧ (m : Int) ≤ pcTop w := by
  simp [representsPc]

theorem stepBounded_narrow {p : Params} {w : Nat} {s : State} (hw : representsPc w s.P.length = true) (hpc : -1 ≤ s.pc) :
    stepBounded p (s.narrow w) = mapNext (State.narrow w) (stepWith p s) := by
  obtain ⟨hw, htop⟩ := (representsPc_iff ..).1 hw
  have narrow_saturated (o : Host.Outcome State Fault Refusal) :
      mapNext (State.narrow w) (mapNext (saturatePc (pcTop w)) o) = mapNext (State.narrow w) o := by
    simp only [mapNext_mapNext, narrow_saturatePc]
  calc stepBounded p (s.narrow w)
      = mapNext (State.narrow w) (stepWith p (saturatePc (pcTop w) s)) := by rw [stepBounded, widen_narrow hw hpc]
    _ = mapNext (State.narrow w) (stepSaturating p (pcTop w) (saturatePc (pcTop w) s)) := (narrow_saturated _).symm
    _ = mapNext (State.narrow w) (stepWith p s) := by rw [stepSaturating_saturatePc p htop, narrow_saturated]

/-- A run of the register is the run of the machine, from every state that meets the invariant: there the pc is at least -1. -/
theorem runStepsBounded_narrow {p : Params} {w : Nat} (k : Nat) {s : State} (hs : Inv p s)
    (hw : representsPc w s.P.length = true) :
    runStepsBounded p k (s.narrow w) = mapNext (State.narrow w) (runSteps p k s) := by
  induction k generalizing s with
  | zero => rfl
  | succ k ih =>
    by_cases hr : s.rs = .running
    · obtain ⟨t, ht⟩ := stepWith_answers p s
      obtain ⟨hpc, -, -, -⟩ := (runStateFacts_running hr).1 hs.facts
      have hstep : stepBounded p (s.narrow w) = .next (t.narrow w) := by rw [stepBounded_narrow hw hpc, ht, mapNext_next]
      have hrec : runStepsBounded p (k + 1) (s.narrow w) = runStepsBounded p k (t.narrow w) := by
        rw [runStepsBounded, if_pos (show (s.narrow w).rs = .running from hr), hstep]
      rw [hrec, runSteps_succ hr ht]
      exact ih (inv_stepWith hs ht) (by rwa [store_of_stepWith ht])
    · rw [runSteps_not_running hr, runStepsBounded, if_neg (show (s.narrow w).rs ≠ .running from hr), mapNext_next]

/-! ## The two-update jump -/

/-- Settles O59: − 2 and then + 1 is − 1, in every register width. -/
theorem twoUpdateJumpAgrees : Obligations.TwoUpdateJumpAgrees := by
  intro w k
  have hone : BitVec.ofInt w (-1) = -1#w := BitVec.ofInt_neg
  have htwo : 2#w = 1#w + 1#w := BitVec.ofNat_add 1 1
  rw [targetPc, Int.sub_eq_add_neg, BitVec.ofInt_add, BitVec.ofInt_natCast, hone, twoUpdateTarget, htwo]
  abel

/-! ## The programs that are refused -/

theorem wellFormed_iff (kW : Option Nat) (i : Instr) :
    i.wellFormed kW = true ↔ ∀ w, kW = some w → ∀ k, i.literal? = some k → k < 2 ^ w := by
  unfold Instr.wellFormed
  cases kW <;> cases i.literal? <;> simp

theorem literalsFit_iff (r : Realisation) (P : List Line) :
    literalsFit r P = true ↔ ∀ w, r.kW = some w → ∀ L ∈ P, ∀ k, (decode L).literal? = some k → k < 2 ^ w := by
  simp only [literalsFit, List.all_eq_true, wellFormed_iff]
  exact ⟨fun h w hw L hL => h L hL w hw, fun h L hL w hw => h w hw L hL⟩

theorem linesFit_iff (r : Realisation) (P : List Line) :
    linesFit r P = true ↔ ∀ m, r.maxLines = some m → P.length ≤ m := by
  unfold linesFit
  cases r.maxLines <;> simp

theorem runBounded_tooLong {r : Realisation} {p : Params} {S : Text} {s : State} (hs : s.rs ≠ .running)
    (h : linesFit r (loadProgram p S) = false) : runBounded r p S s = .refused .programTooLong := by
  rw [runBounded, if_neg hs, if_pos h]

theorem runBounded_tooWide {r : Realisation} {p : Params} {S : Text} {s : State} (hs : s.rs ≠ .running)
    (h : linesFit r (loadProgram p S) = true) (hk : literalsFit r (loadProgram p S) = false) :
    runBounded r p S s = .refused .literalTooWide := by
  rw [runBounded, if_neg hs, if_neg (by simp [h]), if_pos hk]

theorem runBounded_fits {r : Realisation} {p : Params} {S : Text} {s : State} (hs : s.rs ≠ .running)
    (h : linesFit r (loadProgram p S) = true) (hk : literalsFit r (loadProgram p S) = true) :
    runBounded r p S s = command p (.run S) s := by
  rw [runBounded, if_neg hs, if_neg (by simp [h]), if_neg (by simp [hk])]

/-- What a bounded realisation admits is a program it can hold, at the start of its run. -/
theorem runBounded_eq_next {r : Realisation} {p : Params} {S : Text} {s t : State} (h : runBounded r p S s = .next t) :
    t = startRun p S ∧ linesFit r (loadProgram p S) = true := by
  unfold runBounded at h
  split at h
  · cases h
  · split at h
    · cases h
    · rename_i hfit
      split at h
      · cases h
      · exact ⟨eq_startRun_of_command h, by simpa using hfit⟩

/-- A conforming realisation with a pc register of `w` bits represents every pc of a program that it can hold. -/
theorem representsPc_of_conforms {r : Realisation} {w : Nat} {P : List Line} (hr : r.conforms = true) (hw : r.pcW = some w)
    (hfit : linesFit r P = true) : representsPc w P.length = true := by
  cases hm : r.maxLines with
  | none => simp [Realisation.conforms, hw, hm] at hr
  | some m =>
    have hlen := (linesFit_iff r P).1 hfit m hm
    have hm : representsPc w m = true := by simpa [Realisation.conforms, hw, hm] using hr
    rw [representsPc_iff] at hm ⊢
    exact ⟨hm.1, by omega⟩

/-- Settles O60: the three answers of a bounded RUN, by what fits. -/
theorem wideLiteralsAreRefusedNotWrapped : Obligations.WideLiteralsAreRefusedNotWrapped := by
  intro r p S s hs
  refine ⟨fun ⟨m, hm, hlong⟩ => runBounded_tooLong hs ?tooLong, fun hlines ⟨w, hw, L, hL, k, hk, hwide⟩ =>
    runBounded_tooWide hs ((linesFit_iff ..).2 hlines) ?tooWide, fun hlines hliterals =>
    runBounded_fits hs ((linesFit_iff ..).2 hlines) ((literalsFit_iff ..).2 hliterals)⟩
  case tooLong =>
    refine Bool.eq_false_iff.2 fun hfit => ?_
    have := (linesFit_iff ..).1 hfit m hm
    omega
  case tooWide =>
    refine Bool.eq_false_iff.2 fun hfit => ?_
    have := (literalsFit_iff ..).1 hfit w hw L hL k hk
    omega

/-- Settles O58: saturation is unseen by a step, so is the register that stores the saturated pc, and the invariant carries that
over every run that is admitted. -/
theorem saturatingPcFollowsTheIntegerRule : Obligations.SaturatingPcFollowsTheIntegerRule := by
  refine ⟨fun p _ s => stepSaturating_saturatePc p, fun p w s => stepBounded_narrow, fun r p w S s t hr hw h k => ?run⟩
  case run =>
    obtain ⟨rfl, hfit⟩ := runBounded_eq_next h
    exact runStepsBounded_narrow k (inv_startRun p S) (by rw [store_startRun]; exact representsPc_of_conforms hr hw hfit)

end Sys2Proof.Proofs
